-- ==== Sys2Proof/Word.lean ====
section
/-! DEFINITION. The plain value types of the tape codec block (00_scope.md R8, R9): bytes, levels and
names. Tacts and addresses are plain naturals (`Nat`): a tact is one host clock cycle, only ever added, subtracted and compared,
without wrap-around (R9), and an address is only compared for equality (R32, R39). -/

namespace Sys2Proof

/-- A byte is 8 bits (R8); bit 7 is the most significant. -/
abbrev Byte := BitVec 8

/-- A level is a boolean: high = true = 1, low = false = 0 (R8). -/
abbrev Level := Bool

/-- The resting signal level (R8). -/
abbrev high : Level := true

/-- The other level (R8). -/
abbrev low : Level := false

/-- A suggested file name: its characters, in order (R52). -/
abbrev Name := List Char

end Sys2Proof
end

