-- ==== Sys2Proof/Config.lean ====
section
/-! DEFINITION. What is fixed for one machine: the tape's data blocks, the configuration record `cfg` of 00_scope.md R4 and
R5 with its well-formedness WF(cfg) of R6, the CANON values of R7, and the free values of the model (log entries 10, 14 and
15), which have no body. -/

namespace Sys2Proof

/-- The block-kind capability set (R16, R66): StandardData, PureTone, PureData, Description, and the kinds the spec writes
as an ellipsis, which are one constructor here (log entry 17). -/
inductive BlockKind where
  | standardData
  | pureTone
  | pureData
  | description
  | other
  deriving DecidableEq, Repr, Inhabited

/-- A Data Block, an immutable record (R16, R51). -/
structure DataBlock where
  kind : BlockKind
  payload : List Byte
  pilotPulseCount : Nat
  pilotIsHeaderLength : Bool
  pauseAfterMs : Nat
  deriving DecidableEq, Repr, Inhabited

/-- The configuration record `cfg`: the Timing Constants of R4 and the platform parameters of R5. Every field is OPEN in
the spec; a claim quantifies over it. `captureBufferBytes` concerns only a hardware realisation with a finite buffer, and
no rule of the model reads it (R5, R34). -/
structure Config where
  /-- `PILOT_PL`, tacts -/
  pilotPL : Nat
  /-- `SYNC_1_PL`, tacts -/
  sync1PL : Nat
  /-- `SYNC_2_PL`, tacts -/
  sync2PL : Nat
  /-- `BIT_0_PL`, tacts of one half-pulse of a 0 bit -/
  bit0PL : Nat
  /-- `BIT_1_PL`, tacts of one half-pulse of a 1 bit -/
  bit1PL : Nat
  /-- `TERM_SYNC_PL`, tacts -/
  termSyncPL : Nat
  /-- `HEADER_PILOT_COUNT`, pulses -/
  headerPilotCount : Nat
  /-- `DATA_PILOT_COUNT`, pulses -/
  dataPilotCount : Nat
  /-- `PAUSE_MS`, milliseconds -/
  pauseMs : Nat
  /-- `TOLERANCE`, tacts -/
  tolerance : Nat
  /-- `MIN_PILOT_COUNT`, pulses -/
  minPilotCount : Nat
  /-- `SILENCE_THRESHOLD`, tacts -/
  silenceThreshold : Nat
  /-- `LOAD_ENTRY_ADDR` -/
  loadEntryAddr : Nat
  /-- `SAVE_ENTRY_ADDR` -/
  saveEntryAddr : Nat
  /-- `ERROR_HANDLER_ADDR` -/
  errorHandlerAddr : Nat
  /-- `ADDR_BITS`, width of an address -/
  addrBits : Nat
  /-- `CLOCK_HZ`, tacts per second -/
  clockHz : Nat
  /-- `TACT_BITS`, width of a tact in an operation word -/
  tactBits : Nat
  /-- `HEADER_LEN`, bytes -/
  headerLen : Nat
  /-- `NAME_OFFSET`, bytes -/
  nameOffset : Nat
  /-- `NAME_LEN`, bytes -/
  nameLen : Nat
  /-- `CAPTURE_BUFFER_BYTES`; read by no rule -/
  captureBufferBytes : Nat
  /-- the tape, an ordered list of Data Blocks, read-only -/
  tape : List DataBlock
  deriving DecidableEq, Repr

namespace Config

/-- The six pulse lengths that have a tolerance window (R6). -/
def pulseLengths (c : Config) : List Nat :=
  [c.pilotPL, c.sync1PL, c.sync2PL, c.bit0PL, c.bit1PL, c.termSyncPL]

/-- The windows `[x - tol, x + tol]` and `[y - tol, y + tol]` have no tact in common. -/
abbrev WindowsDisjoint (tol x y : Nat) : Prop := x + tol < y - tol ∨ y + tol < x - tol

/-- R6 (a): no window reaches zero or below. -/
abbrev LengthsExceedTolerance (c : Config) : Prop := ∀ x ∈ c.pulseLengths, c.tolerance < x

/-- R6 (b): the six tolerance windows are pairwise disjoint. -/
abbrev WindowsPairwiseDisjoint (c : Config) : Prop := c.pulseLengths.Pairwise (WindowsDisjoint c.tolerance)

/-- R6 (c): header blocks use a larger count than data blocks. -/
abbrev HeaderCountLarger (c : Config) : Prop := c.dataPilotCount < c.headerPilotCount

/-- R6 (d): the three addresses are pairwise distinct and fit in `ADDR_BITS`. -/
abbrev AddressesDistinct (c : Config) : Prop :=
  c.loadEntryAddr ≠ c.saveEntryAddr ∧ c.loadEntryAddr ≠ c.errorHandlerAddr ∧
  c.saveEntryAddr ≠ c.errorHandlerAddr ∧ c.loadEntryAddr < 2 ^ c.addrBits ∧
  c.saveEntryAddr < 2 ^ c.addrBits ∧ c.errorHandlerAddr < 2 ^ c.addrBits

/-- R6 (e). -/
abbrev ClockRuns (c : Config) : Prop := 1 ≤ c.clockHz

/-- R6 (f): the name field lies inside a header record that has at least one byte. -/
abbrev HeaderShapeFits (c : Config) : Prop := c.nameOffset + c.nameLen ≤ c.headerLen ∧ 1 ≤ c.headerLen

/-- R6 (g): every block of the tape has a kind whose slot the spec gives. -/
abbrev TapeKindsSpecified (c : Config) : Prop :=
  ∀ b ∈ c.tape, b.kind = .standardData ∨ b.kind = .description

/-- Clauses (a) to (f) of R6: what `step` asks of the configuration before it runs an operation (R11, log entry 11).
Clause (g) is refused where the sequencer meets the block (R66). -/
abbrev ParametersWF (c : Config) : Prop :=
  c.LengthsExceedTolerance ∧ c.WindowsPairwiseDisjoint ∧ c.HeaderCountLarger ∧ c.AddressesDistinct ∧
  c.ClockRuns ∧ c.HeaderShapeFits

/-- WF(cfg) of R6, the named premise of claims. -/
abbrev WF (c : Config) : Prop := c.ParametersWF ∧ c.TapeKindsSpecified

/-- The CANON values of R7 with an empty tape. PRESUMED: the spec itself marks them as general knowledge, not in its
source, and gives no tape. Only `State.reset` uses them, and no statement rests on them (log entry 1). -/
def canon : Config where
  pilotPL := 2168
  sync1PL := 667
  sync2PL := 735
  bit0PL := 855
  bit1PL := 1710
  termSyncPL := 947
  headerPilotCount := 8063
  dataPilotCount := 3223
  pauseMs := 1000
  tolerance := 24
  minPilotCount := 3000
  silenceThreshold := 10500000
  loadEntryAddr := 0x056C
  saveEntryAddr := 0x04C2
  errorHandlerAddr := 0x0008
  addrBits := 16
  clockHz := 3500000
  tactBits := 64
  headerLen := 19
  nameOffset := 2
  nameLen := 10
  captureBufferBytes := 65536
  tape := []

/-- FREE VALUE (log entry 10): the length of the PAUSE window when no standard block is bound, which R44 leaves unstated
because it gives the length only as `pauseTacts(B)` of a block B. It has no body, so nothing can be proved about it. -/
opaque freePauseTacts : Nat → Nat

/-- FREE VALUE (log entry 14): whether CAP.SILENT finds silence at a tact below `cap.lastEdgeTact`, where R84 states no
result. -/
opaque freeSilent : Nat → Bool

/-- FREE VALUE (log entry 15): the block that an index outside the tape stands for, where the spec states no block. It is a
function of the configuration and the index, since the tape store answers one place the same way every time (R33). -/
opaque freeBlock : Config → Nat → DataBlock

end Config

end Sys2Proof
end

