-- ==== Sys2Proof/Syntax.lean ====
section
/-! DEFINITION. The operations of the block: one constructor for each of the 28 rows of spec/opcode_table.json, with the
operands of 30_encoding.md R56. Formats H (host), C (component), O (output event) and P (pulse symbol). -/

namespace Sys2Proof

/-- The block's operations (R56), in the table's order. -/
inductive Instr where
  -- format H: host operations (R87 to R92)
  | reset
  | fetch (pc : Nat) (tact : Nat)
  | earrd (tact : Nat)
  | micwr (tact : Nat) (level : Level)
  -- format C: component operations (R60, R61, R67, R68, R72 to R74, R83, R84)
  | engNew (blockIndex : Nat) (startTact : Nat)
  | engSignalat (tact : Nat)
  | seqInitplay (startTact : Nat)
  | seqGetearbit (tact : Nat)
  | capInit (tact : Nat)
  | capClassify (d : Nat)
  | capOnedge (tact : Nat) (level : Level)
  | capComplete
  | capSilent (tact : Nat)
  -- format O: output events (R93)
  | enteredLoad
  | leftLoad
  | enteredSave
  | leftSave
  | createFile
  | setName (name : Name)
  | appendBlock (block : DataBlock)
  | finalize
  -- format P: pulse symbols of the line code (R44)
  | pilot
  | sync1
  | sync2
  | bit0
  | bit1
  | term
  | pause
  deriving DecidableEq, Repr

end Sys2Proof
end

