-- ==== Sys2Proof/WellFormed.lean ====
section
/-! DEFINITION. Which operations fit an operation word of a given configuration (R56): addresses in `ADDR_BITS`, tacts and
durations in `TACT_BITS`, and, by log entry 4, the operands to which the spec gives no width. -/

namespace Sys2Proof

/-- The value fits a field of `w` bits. -/
abbrev FitsIn (w n : Nat) : Prop := n < 2 ^ w

/-- A name fits when its length does and every character is the code point of a byte (R52, log entry 4). -/
abbrev NameFits (c : Config) (name : Name) : Prop :=
  FitsIn c.tactBits name.length ∧ ∀ ch ∈ name, ch.toNat < 256

/-- A block record fits when its counts do (log entry 4). -/
abbrev BlockFits (c : Config) (b : DataBlock) : Prop :=
  FitsIn c.tactBits b.payload.length ∧ FitsIn c.tactBits b.pilotPulseCount ∧ FitsIn c.tactBits b.pauseAfterMs

/-- The operation's operands fit the fields of its operation word (R56). -/
def Instr.wellFormed (c : Config) : Instr → Bool
  | .reset => true
  | .fetch pc tact => decide (FitsIn c.addrBits pc ∧ FitsIn c.tactBits tact)
  | .earrd tact => decide (FitsIn c.tactBits tact)
  | .micwr tact _ => decide (FitsIn c.tactBits tact)
  | .engNew blockIndex startTact => decide (FitsIn c.tactBits blockIndex ∧ FitsIn c.tactBits startTact)
  | .engSignalat tact => decide (FitsIn c.tactBits tact)
  | .seqInitplay startTact => decide (FitsIn c.tactBits startTact)
  | .seqGetearbit tact => decide (FitsIn c.tactBits tact)
  | .capInit tact => decide (FitsIn c.tactBits tact)
  | .capClassify d => decide (FitsIn c.tactBits d)
  | .capOnedge tact _ => decide (FitsIn c.tactBits tact)
  | .capComplete => true
  | .capSilent tact => decide (FitsIn c.tactBits tact)
  | .enteredLoad => true
  | .leftLoad => true
  | .enteredSave => true
  | .leftSave => true
  | .createFile => true
  | .setName name => decide (NameFits c name)
  | .appendBlock block => decide (BlockFits c block)
  | .finalize => true
  | .pilot => true
  | .sync1 => true
  | .sync2 => true
  | .bit0 => true
  | .bit1 => true
  | .term => true
  | .pause => true

end Sys2Proof
end

