-- ==== Sys2Proof/Decode.lean ====
section
/-! DEFINITION. Operation words (30_encoding.md R56): a word is the 8-bit operation number followed by the operands in the
order listed, `ADDR_BITS` for pc, `TACT_BITS` for a tact or duration, 1 bit for a level. A word is a string of bits, each
field with its most significant bit first (log entries 3 and 4). The decoder is total and rejects by name; the encoder
stands after it and is written from the same table. -/

namespace Sys2Proof

/-- Why a bit string is no operation word. -/
inductive DecodeError where
  /-- The first eight bits are a number that names nothing (R56). -/
  | unknownOperation (number : Nat)
  /-- The bits end inside the word. -/
  | truncatedWord
  /-- The kind field of a block record holds no kind's code (log entry 4). -/
  | reservedKindCode (code : Nat)
  deriving DecidableEq, Repr

/-! ## Fields -/

/-- The low `w` bits of `n`, most significant first. -/
def natToBits : Nat → Nat → List Bool
  | 0, _ => []
  | w + 1, n => n.testBit w :: natToBits w n

/-- Reads `w` bits, most significant first, after the bits already read as `acc`. -/
def takeNatFrom : Nat → Nat → List Bool → Except DecodeError (Nat × List Bool)
  | 0, acc, bits => .ok (acc, bits)
  | _ + 1, _, [] => .error .truncatedWord
  | w + 1, acc, b :: bits => takeNatFrom w (2 * acc + b.toNat) bits

/-- Reads a field of `w` bits. -/
def takeNat (w : Nat) (bits : List Bool) : Except DecodeError (Nat × List Bool) := takeNatFrom w 0 bits

/-- Reads one bit: a level or a flag. -/
def takeBool : List Bool → Except DecodeError (Bool × List Bool)
  | [] => .error .truncatedWord
  | b :: bits => .ok (b, bits)

/-- Reads `n` bytes. -/
def takeBytes : Nat → List Bool → Except DecodeError (List Byte × List Bool)
  | 0, bits => .ok ([], bits)
  | n + 1, bits =>
    match takeNat 8 bits with
    | .error e => .error e
    | .ok (v, bits) =>
      match takeBytes n bits with
      | .error e => .error e
      | .ok (vs, bits) => .ok (BitVec.ofNat 8 v :: vs, bits)

/-- The bits of a byte string, each byte most significant bit first. -/
def bytesToBits (bytes : List Byte) : List Bool := bytes.flatMap fun v => natToBits 8 v.toNat

/-- The code of a kind in a block operand (log entry 4). -/
def BlockKind.code : BlockKind → Nat
  | .standardData => 0
  | .pureTone => 1
  | .pureData => 2
  | .description => 3
  | .other => 4

/-- The kind of a code; 5, 6 and 7 are reserved. -/
def BlockKind.ofCode : Nat → Except DecodeError BlockKind
  | 0 => .ok .standardData
  | 1 => .ok .pureTone
  | 2 => .ok .pureData
  | 3 => .ok .description
  | 4 => .ok .other
  | code => .error (.reservedKindCode code)

/-- The character with code point `v` (R52). -/
def charOfByte (v : Byte) : Char := Char.ofNat v.toNat

/-- Reads a counted byte string: its length in `TACT_BITS` bits, then its bytes (log entry 4). -/
def takeCounted (c : Config) (bits : List Bool) : Except DecodeError (List Byte × List Bool) := do
  let (n, bits) ← takeNat c.tactBits bits
  takeBytes n bits

/-- The bits of a counted byte string. -/
def countedToBits (c : Config) (bytes : List Byte) : List Bool :=
  natToBits c.tactBits bytes.length ++ bytesToBits bytes

/-- Reads a Data Block record, its fields in the order of R16 (log entry 4). -/
def takeBlock (c : Config) (bits : List Bool) : Except DecodeError (DataBlock × List Bool) := do
  let (code, bits) ← takeNat 3 bits
  let kind ← BlockKind.ofCode code
  let (payload, bits) ← takeCounted c bits
  let (pilotPulseCount, bits) ← takeNat c.tactBits bits
  let (pilotIsHeaderLength, bits) ← takeBool bits
  let (pauseAfterMs, bits) ← takeNat c.tactBits bits
  return ({ kind, payload, pilotPulseCount, pilotIsHeaderLength, pauseAfterMs }, bits)

/-- The bits of a Data Block record. -/
def blockToBits (c : Config) (b : DataBlock) : List Bool :=
  natToBits 3 b.kind.code ++ (countedToBits c b.payload ++ (natToBits c.tactBits b.pilotPulseCount ++
    ([b.pilotIsHeaderLength] ++ natToBits c.tactBits b.pauseAfterMs)))

/-! ## Words -/

/-- Reads one tact, duration or index operand. -/
def takeTactOperand (c : Config) (make : Nat → Instr) (bits : List Bool) :
    Except DecodeError (Instr × List Bool) := do
  let (tact, bits) ← takeNat c.tactBits bits
  return (make tact, bits)

/-- Reads the operands of the operation numbered `number` (R56). -/
def decodeOperands (c : Config) (number : Nat) (bits : List Bool) : Except DecodeError (Instr × List Bool) :=
  match number with
  | 0x00 => .ok (.reset, bits)
  | 0x01 => do
    let (pc, bits) ← takeNat c.addrBits bits
    let (tact, bits) ← takeNat c.tactBits bits
    return (.fetch pc tact, bits)
  | 0x02 => takeTactOperand c .earrd bits
  | 0x03 => do
    let (tact, bits) ← takeNat c.tactBits bits
    let (level, bits) ← takeBool bits
    return (.micwr tact level, bits)
  | 0x10 => do
    let (blockIndex, bits) ← takeNat c.tactBits bits
    let (startTact, bits) ← takeNat c.tactBits bits
    return (.engNew blockIndex startTact, bits)
  | 0x11 => takeTactOperand c .engSignalat bits
  | 0x12 => takeTactOperand c .seqInitplay bits
  | 0x13 => takeTactOperand c .seqGetearbit bits
  | 0x18 => takeTactOperand c .capInit bits
  | 0x19 => takeTactOperand c .capClassify bits
  | 0x1A => do
    let (tact, bits) ← takeNat c.tactBits bits
    let (level, bits) ← takeBool bits
    return (.capOnedge tact level, bits)
  | 0x1B => .ok (.capComplete, bits)
  | 0x1C => takeTactOperand c .capSilent bits
  | 0x20 => .ok (.enteredLoad, bits)
  | 0x21 => .ok (.leftLoad, bits)
  | 0x22 => .ok (.enteredSave, bits)
  | 0x23 => .ok (.leftSave, bits)
  | 0x28 => .ok (.createFile, bits)
  | 0x29 => do
    let (bytes, bits) ← takeCounted c bits
    return (.setName (bytes.map charOfByte), bits)
  | 0x2A => do
    let (block, bits) ← takeBlock c bits
    return (.appendBlock block, bits)
  | 0x2B => .ok (.finalize, bits)
  | 0x30 => .ok (.pilot, bits)
  | 0x31 => .ok (.sync1, bits)
  | 0x32 => .ok (.sync2, bits)
  | 0x33 => .ok (.bit0, bits)
  | 0x34 => .ok (.bit1, bits)
  | 0x35 => .ok (.term, bits)
  | 0x36 => .ok (.pause, bits)
  | n => .error (.unknownOperation n)

/-- Reads one operation word from the front of a bit string, and gives the operation and the bits after it. -/
def decode (c : Config) (bits : List Bool) : Except DecodeError (Instr × List Bool) := do
  let (number, bits) ← takeNat 8 bits
  decodeOperands c number bits

/-- The operation number of R56. -/
def Instr.number : Instr → Nat
  | .reset => 0x00
  | .fetch _ _ => 0x01
  | .earrd _ => 0x02
  | .micwr _ _ => 0x03
  | .engNew _ _ => 0x10
  | .engSignalat _ => 0x11
  | .seqInitplay _ => 0x12
  | .seqGetearbit _ => 0x13
  | .capInit _ => 0x18
  | .capClassify _ => 0x19
  | .capOnedge _ _ => 0x1A
  | .capComplete => 0x1B
  | .capSilent _ => 0x1C
  | .enteredLoad => 0x20
  | .leftLoad => 0x21
  | .enteredSave => 0x22
  | .leftSave => 0x23
  | .createFile => 0x28
  | .setName _ => 0x29
  | .appendBlock _ => 0x2A
  | .finalize => 0x2B
  | .pilot => 0x30
  | .sync1 => 0x31
  | .sync2 => 0x32
  | .bit0 => 0x33
  | .bit1 => 0x34
  | .term => 0x35
  | .pause => 0x36

/-- The operand bits of an operation word, in the order listed (R56). -/
def operandBits (c : Config) : Instr → List Bool
  | .reset => []
  | .fetch pc tact => natToBits c.addrBits pc ++ natToBits c.tactBits tact
  | .earrd tact => natToBits c.tactBits tact
  | .micwr tact level => natToBits c.tactBits tact ++ [level]
  | .engNew blockIndex startTact => natToBits c.tactBits blockIndex ++ natToBits c.tactBits startTact
  | .engSignalat tact => natToBits c.tactBits tact
  | .seqInitplay startTact => natToBits c.tactBits startTact
  | .seqGetearbit tact => natToBits c.tactBits tact
  | .capInit tact => natToBits c.tactBits tact
  | .capClassify d => natToBits c.tactBits d
  | .capOnedge tact level => natToBits c.tactBits tact ++ [level]
  | .capComplete => []
  | .capSilent tact => natToBits c.tactBits tact
  | .enteredLoad => []
  | .leftLoad => []
  | .enteredSave => []
  | .leftSave => []
  | .createFile => []
  | .setName name => countedToBits c (name.map fun ch => BitVec.ofNat 8 ch.toNat)
  | .appendBlock block => blockToBits c block
  | .finalize => []
  | .pilot => []
  | .sync1 => []
  | .sync2 => []
  | .bit0 => []
  | .bit1 => []
  | .term => []
  | .pause => []

/-- The operation word of an operation (R56). -/
def encode (c : Config) (i : Instr) : List Bool := natToBits 8 i.number ++ operandBits c i

/-! ## The opcode table's words -/

/-- The bits of `n` bytes of a table word: the byte of bits 7..0 first, then the byte of bits 15..8, and so on. -/
def tableBytes : Nat → Nat → List Bool
  | 0, _ => []
  | n + 1, w => natToBits 8 (w % 256) ++ tableBytes n (w / 256)

/-- A table word of `nbits` bits as the block would be given it, every bit above `nbits` zero: enough zeros follow for the
longest operation word whose operands are all zero (`appendBlock`, or FETCH with its address). -/
def tableBits (c : Config) (nbits w : Nat) : List Bool :=
  tableBytes ((nbits + 7) / 8) w ++ List.replicate (4 + c.addrBits + 4 * c.tactBits) false

/-- The operation the decoder reads from a word numbered as spec/opcode_table.json numbers it, with the operand widths of
the configuration that `State.reset` holds. -/
def decodeTableWord (nbits w : Nat) : Option Instr :=
  match decode Config.canon (tableBits Config.canon nbits w) with
  | .ok (i, _) => some i
  | .error _ => none

end Sys2Proof
end

