-- ==== Sys2Proof/Machine/State.lean ====
section
/-! DEFINITION. The whole state of the block (10_state.md): the clock register, the tagged sum of sessions over the mode,
and beside them what the interface of the model needs, each named in the assumption log: the configuration (a parameter
that no operation writes), the outputs, the pending request bits, and the free-value counter. -/

namespace Sys2Proof.Machine

/-- The operating modes (R15). -/
inductive Mode where
  | passive
  | load
  | save
  deriving DecidableEq, Repr

/-- The Playback Phase, with `notStarted` for "has no phase" (R18). -/
inductive EngPhase where
  | notStarted
  | pilot
  | sync
  | data
  | termSync
  | pause
  | completed
  deriving DecidableEq, Repr

/-- The Capture (Save) Phase (R20). -/
inductive CapPhase where
  | none
  | pilot
  | sync1
  | sync2
  | data
  | error
  deriving DecidableEq, Repr

/-- The previous pulse's classification (R23). -/
inductive PrevPulse where
  | noPulse
  | bit0
  | bit1
  deriving DecidableEq, Repr

/-- The class of a measured pulse (R53, R73). -/
inductive PulseClass where
  | pilot
  | sync1
  | sync2
  | bit0
  | bit1
  | term
  | other
  deriving DecidableEq, Repr

/-- The pulse vocabulary of the line code: six pulses and one window (R44). -/
inductive PulseSymbol where
  | pilot
  | sync1
  | sync2
  | bit0
  | bit1
  | term
  | pause
  deriving DecidableEq, Repr

/-- What R44 and R47 say of a symbol's level: fixed, alternating pulse by pulse, or low for the first half-pulse of a bit
and high for the second. -/
inductive LevelRule where
  | fixed (level : Level)
  | alternating
  | lowThenHigh
  deriving DecidableEq, Repr

/-- R14: the largest tact operand any host operation has carried since reset. -/
structure ClkState where
  last : Nat
  deriving DecidableEq, Repr

/-- R17: the Tape Sequencer's registers. -/
structure SeqState where
  blockIndex : Nat
  eof : Bool
  deriving DecidableEq, Repr

/-- R18: the Block Playback Engine's registers. `block` is the instance's binding to a block of the tape (R60), which
equals `seq.blockIndex` in every session the sequencer runs (log entry 7). -/
structure EngState where
  block : Nat
  startTact : Nat
  phase : EngPhase
  level : Level
  deriving DecidableEq, Repr

/-- R20 to R27: the Capture Decoder's registers. -/
structure CapState where
  phase : CapPhase
  pilotCount : Nat
  bitOffset : Nat
  byteAcc : Byte
  prevPulse : PrevPulse
  buffer : List Byte
  blockCount : Nat
  lastEdgeTact : Nat
  micLevel : Level
  deriving DecidableEq, Repr

/-- R28: the sink bookkeeping. -/
structure SinkState where
  fileCreated : Bool
  deriving DecidableEq, Repr

/-- R13: the tagged sum over the mode. A session's registers exist only while its mode is active. -/
inductive Session where
  | passive
  | load (seq : SeqState) (eng : EngState)
  | save (cap : CapState) (sink : SinkState)
  deriving DecidableEq, Repr

/-- R15: the mode is the tag of the session. -/
def Session.mode : Session → Mode
  | .passive => .passive
  | .load _ _ => .load
  | .save _ _ => .save

/-- R29: the events of the notification stream and of the sink stream. -/
inductive OutputEvent where
  | enteredLoad
  | leftLoad
  | enteredSave
  | leftSave
  | createFile
  | setName (name : Name)
  | appendBlock (block : DataBlock)
  | finalize
  deriving DecidableEq, Repr

/-- What a pulse-symbol operation answers: the symbol's row of R44 (log entry 9). -/
structure PulseInfo where
  symbol : PulseSymbol
  length : Nat
  level : LevelRule
  decoderClass : Option PulseClass
  deriving DecidableEq, Repr

/-- The result of an operation that returns one (R56). -/
inductive OpResult where
  | level (l : Level)
  | pulseClass (k : PulseClass)
  | silent (b : Bool)
  | pulse (p : PulseInfo)
  deriving DecidableEq, Repr

/-- The machine's state. `clk` and `m` are the state of R13. `cfg` is the configuration, a parameter held here because
the step function takes only the state (log entry 1). `result` and `events` are the outputs of R29: the last operation's
result, and both event streams since machine start in order of emission (log entry 5). `input` holds the host's pending
requests as operation words (log entry 2). `freeCount` numbers the free values drawn so far (log entries 10 and 14). -/
structure State where
  cfg : Config
  clk : ClkState
  m : Session
  result : Option OpResult
  events : List OutputEvent
  input : List Bool
  freeCount : Nat
  deriving DecidableEq, Repr

/-- The operating mode (R15). -/
def State.mode (s : State) : Mode := s.m.mode

/-- Why the machine stops with a fault. It has no constructor: "The block never faults, never traps and never raises an
interrupt" (R11). Safe: nothing can raise it. -/
inductive Fault where
  deriving DecidableEq, Repr

/-- Why an operation is refused: the places where the spec gives no meaning (R11). -/
inductive Refusal where
  /-- Raised by an arm of `exec` that has no meaning yet; no arm does. Safe. -/
  | notModelled (mnemonic : String)
  /-- Raised by `step`: the configuration violates R6 (a) to (f) (R11, U8). Safe: the spec refuses. -/
  | configNotWellFormed
  /-- Raised by `step`: the pending request bits are no operation word (R56, U20). Safe: the spec refuses. -/
  | badOperationWord (e : DecodeError)
  /-- Raised by FETCH, EARRD and MICWR: the tact is below `clk.last` (R86, U1). Safe: the spec refuses. -/
  | tactDecreasing
  /-- Raised by ENG.SIGNALAT, also inside SEQ.GETEARBIT: the tact is below `eng.startTact` (R61, U2). Safe: the spec
  refuses. -/
  | tactBeforeBlockStart
  /-- Raised by CAP.ONEDGE, also inside MICWR: the tact is below `cap.lastEdgeTact` (R74). Safe: the spec refuses. -/
  | tactBeforeLastEdge
  /-- Raised by SEQ.GETEARBIT, also inside EARRD: the sequencer met a block whose kind has no slot timing (R66, U9).
  Safe: the spec refuses. -/
  | blockKindNotSpecified (kind : BlockKind)
  /-- Raised by ENG.SIGNALAT: the bound block is not of kind StandardData, so it has no frame (R55, R60). Safe: it stops
  where the spec gives no signal. -/
  | blockHasNoFrame (kind : BlockKind)
  /-- Raised by ENG and SEQ operations outside mode Load: the registers they act on do not exist (R13, R17, R18).
  Safe. -/
  | noLoadSession
  /-- Raised by CAP operations outside mode Save: the registers they act on do not exist (R13, R20). Safe. -/
  | noSaveSession
  deriving DecidableEq, Repr

/-- The outcome of an operation. -/
abbrev Outcome := Host.Outcome State Fault Refusal

/-- The machine right after RESET (R31, R87, R106): `clk.last = 0`, mode `Passive`, no session. The outputs are empty and
no request is pending (log entries 2 and 5). The configuration is CANON with an empty tape (log entry 1). -/
def State.reset : State where
  cfg := Config.canon
  clk := ⟨0⟩
  m := .passive
  result := none
  events := []
  input := []
  freeCount := 0

end Sys2Proof.Machine
end

