-- ==== Sys2Proof/Machine/LineCode.lean ====
section
/-! DEFINITION. The line code (30_encoding.md R44 to R53): the pulse vocabulary, the frame of a standard block, its levels,
offsets and durations, the pause, the signal in closed form, and the pulse classifier. -/

namespace Sys2Proof

open Machine

/-! ## Pulse vocabulary (R44) -/

/-- R49: milliseconds to tacts, multiplying before the floor division. -/
def Config.msToTacts (c : Config) (ms : Nat) : Nat := ms * c.clockHz / 1000

/-- R49: the length of a block's pause window. -/
def pauseTacts (c : Config) (b : DataBlock) : Nat := c.msToTacts b.pauseAfterMs

/-- R44: the length of a pulse symbol; the PAUSE window has the length it is given. -/
def symbolLength (c : Config) (window : Nat) : PulseSymbol → Nat
  | .pilot => c.pilotPL
  | .sync1 => c.sync1PL
  | .sync2 => c.sync2PL
  | .bit0 => c.bit0PL
  | .bit1 => c.bit1PL
  | .term => c.termSyncPL
  | .pause => window

/-- R44: the decoder class of a symbol; the PAUSE window has none. -/
def symbolClass : PulseSymbol → Option PulseClass
  | .pilot => some .pilot
  | .sync1 => some .sync1
  | .sync2 => some .sync2
  | .bit0 => some .bit0
  | .bit1 => some .bit1
  | .term => some .term
  | .pause => none

/-- R47: the level of a symbol, as far as the symbol alone fixes it. -/
def symbolLevel : PulseSymbol → LevelRule
  | .pilot => .alternating
  | .sync1 => .fixed low
  | .sync2 => .fixed high
  | .bit0 => .lowThenHigh
  | .bit1 => .lowThenHigh
  | .term => .fixed low
  | .pause => .fixed high

/-- R46: the playback phase a symbol belongs to. -/
def symbolPhase : PulseSymbol → EngPhase
  | .pilot => .pilot
  | .sync1 => .sync
  | .sync2 => .sync
  | .bit0 => .data
  | .bit1 => .data
  | .term => .termSync
  | .pause => .pause

/-! ## The frame of a standard block (R45 to R50) -/

/-- The half-pulse kind of a data bit (R44). -/
def bitSymbol (bit : Bool) : PulseSymbol := if bit then .bit1 else .bit0

/-- The bits of a byte from bit 7 down to bit 0 (R35). -/
def byteBits (v : Byte) : List Bool :=
  [v.getLsbD 7, v.getLsbD 6, v.getLsbD 5, v.getLsbD 4, v.getLsbD 3, v.getLsbD 2, v.getLsbD 1, v.getLsbD 0]

/-- The two equal half-pulses of a data bit (R45). -/
def bitPulses (bit : Bool) : List PulseSymbol := [bitSymbol bit, bitSymbol bit]

/-- The data pulses of a payload: bytes in ascending order, bits most significant first (R35, R36, R48). -/
def dataPulses (payload : List Byte) : List PulseSymbol := payload.flatMap fun v => (byteBits v).flatMap bitPulses

/-- R45: the pulses of a standard block's frame, in order: pilots, SYNC1, SYNC2, the data pulses, TERM. -/
def frame (b : DataBlock) : List PulseSymbol :=
  List.replicate b.pilotPulseCount .pilot ++ ([.sync1, .sync2] ++ (dataPulses b.payload ++ [.term]))

/-- R46: the number of pulses of the frame. -/
def nPulses (b : DataBlock) : Nat := b.pilotPulseCount + 2 + 16 * b.payload.length + 1

/-- The length of one pulse of a frame (R44). -/
def pulseLength (c : Config) (p : PulseSymbol) : Nat := symbolLength c 0 p

/-- R58 `FRAME(B)`: the durations of the frame's pulses. -/
def frameDurations (c : Config) (b : DataBlock) : List Nat := (frame b).map (pulseLength c)

/-- R50: the start of pulse `k`, relative to the block's start tact. -/
def pulseStart (c : Config) (b : DataBlock) (k : Nat) : Nat := ((frameDurations c b).take k).sum

/-- R50: the length of the frame's signal. -/
def sigTacts (c : Config) (b : DataBlock) : Nat := (frameDurations c b).sum

/-- R50: the length of the signal and its pause window. -/
def totTacts (c : Config) (b : DataBlock) : Nat := sigTacts c b + pauseTacts c b

/-- R47: the level of pulse `k`. -/
def pulseLevel (b : DataBlock) (k : Nat) : Level := (b.pilotPulseCount + k) % 2 == 1

/-- The pulse that holds the relative tact `r`, and its number, counting from `k`: the unique index with
`pulseStart k ≤ r < pulseStart (k + 1)` (R61); none past the last pulse. -/
def pulseAt (c : Config) : List PulseSymbol → Nat → Nat → Option (Nat × PulseSymbol)
  | [], _, _ => none
  | p :: ps, k, r => if r < pulseLength c p then some (k, p) else pulseAt c ps (k + 1) (r - pulseLength c p)

/-- R61 in closed form: the phase and the level of a standard block's signal at the relative tact `r`. The last line is
never reached: every `r` below `sigTacts` lies in a pulse. -/
def signal (c : Config) (b : DataBlock) (r : Nat) : EngPhase × Level :=
  if totTacts c b ≤ r then (.completed, high)
  else if sigTacts c b ≤ r then (.pause, high)
  else
    match pulseAt c (frame b) 0 r with
    | some (k, p) => (symbolPhase p, pulseLevel b k)
    | none => (.pause, high)

/-- R66: the tacts a block's sequencer slot lasts; none where the spec gives no timing. -/
def slotTacts (c : Config) (b : DataBlock) : Option Nat :=
  match b.kind with
  | .standardData => some (totTacts c b)
  | .description => some 0
  | .pureTone => none
  | .pureData => none
  | .other => none

/-- R51: the class of blocks for which the round-trip law is stated. -/
abbrev ValidStandard (c : Config) (b : DataBlock) : Prop :=
  b.kind = .standardData ∧ c.minPilotCount + 1 ≤ b.pilotPulseCount

/-! ## Classification (R9, R53) -/

/-- R9: a pulse length `d` matches an expected length `x`: `|d - x| ≤ TOLERANCE`. -/
abbrev Matches (c : Config) (d x : Nat) : Prop := d ≤ x + c.tolerance ∧ x ≤ d + c.tolerance

/-- R53: the class of a pulse of `d` tacts, the windows tested in the spec's order. -/
def classify (c : Config) (d : Nat) : PulseClass :=
  if Matches c d c.pilotPL then .pilot
  else if Matches c d c.sync1PL then .sync1
  else if Matches c d c.sync2PL then .sync2
  else if Matches c d c.bit0PL then .bit0
  else if Matches c d c.bit1PL then .bit1
  else if Matches c d c.termSyncPL then .term
  else .other

/-! ## The header record (R52) -/

/-- R52: the record is as long as a header, its flag byte is zero, and the exclusive-or of all its bytes is zero. -/
def headerShaped (c : Config) (p : List Byte) : Bool :=
  p.length == c.headerLen && p.head? == some 0 && p.foldl (· ^^^ ·) 0 == 0

/-- R52: the name field of a header record. -/
def nameField (c : Config) (p : List Byte) : List Byte := (p.drop c.nameOffset).take c.nameLen

/-- The field without its trailing spaces (bytes 0x20). -/
def trimTrailingSpaces (field : List Byte) : List Byte := (field.reverse.dropWhile (· == 0x20)).reverse

/-- R52: the suggested name of a header record, each byte read as a code point. -/
def nameOf (c : Config) (p : List Byte) : Name := (trimTrailingSpaces (nameField c p)).map charOfByte

end Sys2Proof
end

