-- ==== Sys2Proof/Machine/Flags.lean ====
section
/-! DEFINITION. The conditions the rules compute from registers and operands: the byte boundary (R37, R80), the legal pulses
of each capture phase (R54), the silence interval (R84), and the pilot class of a captured block (R83). -/

namespace Sys2Proof.Machine

/-- R37, R80: no bit of a byte and no half-pulse of a bit is pending. -/
def CapState.atByteBoundary (cap : CapState) : Bool := cap.bitOffset == 0 && cap.prevPulse == .noPulse

/-- R22: the mask of bit offset `k`, `0x80 >> k`. -/
def bitMask (k : Nat) : Byte := 0x80#8 >>> k

/-- R79: the class is the second half of the pending bit, or begins a new one. -/
def CapState.bitPulseFits (cap : CapState) (half : PrevPulse) : Bool :=
  cap.prevPulse == .noPulse || cap.prevPulse == half

/-- R54: the pulse is legal in the decoder's phase. In phase `None` every class but Pilot is ignored, and in phase
`Error` every class is, so no pulse is legal there but Pilot in `None`. -/
def legalPulse (c : Config) (cap : CapState) (k : PulseClass) : Bool :=
  match cap.phase, k with
  | .none, .pilot => true
  | .pilot, .pilot => true
  | .pilot, .sync1 => decide (c.minPilotCount ≤ cap.pilotCount)
  | .sync1, .sync2 => true
  | .sync2, .bit0 => cap.bitPulseFits .bit0
  | .sync2, .bit1 => cap.bitPulseFits .bit1
  | .sync2, .term => cap.atByteBoundary
  | .data, .bit0 => cap.bitPulseFits .bit0
  | .data, .bit1 => cap.bitPulseFits .bit1
  | .data, .term => cap.atByteBoundary
  | _, _ => false

/-- R84: the interval since the last edge is longer than the threshold, strictly. -/
def silentAt (c : Config) (lastEdgeTact tact : Nat) : Bool := decide (c.silenceThreshold < tact - lastEdgeTact)

/-- R83: the captured pilot count is nearer to the header count than to the data count. -/
def countIsHeaderLength (c : Config) (pilotCount : Nat) : Bool :=
  decide (c.headerPilotCount + c.dataPilotCount < 2 * pilotCount)

end Sys2Proof.Machine
end

