-- ==== Sys2Proof/Machine/Operands.lean ====
section
/-! DEFINITION. The operand forms of the operations: the tact operand of the host operations with its monotonicity check
(R86), the registers of the running session (R13), the block an index stands for (R60), and the tape store's byte read (R33). -/

namespace Sys2Proof.Machine

/-- R86: refuses a tact below `clk.last`, records it otherwise, and goes on. -/
def timed (tact : Nat) (s : State) (go : State → Outcome) : Outcome :=
  if tact < s.clk.last then .refused .tactDecreasing else go { s with clk := ⟨tact⟩ }

/-- R13, R17, R18: the registers of the Load session; they do not exist outside mode Load. -/
def withLoad (s : State) (go : SeqState → EngState → Outcome) : Outcome :=
  match s.m with
  | .load seq eng => go seq eng
  | .passive => .refused .noLoadSession
  | .save _ _ => .refused .noLoadSession

/-- R13, R20: the registers of the Save session; they do not exist outside mode Save. -/
def withSave (s : State) (go : CapState → SinkState → Outcome) : Outcome :=
  match s.m with
  | .save cap sink => go cap sink
  | .passive => .refused .noSaveSession
  | .load _ _ => .refused .noSaveSession

/-- The outcome of an operation one of whose parts may refuse. -/
def orRefuse {α : Type} (x : Except Refusal α) (go : α → Outcome) : Outcome :=
  match x with
  | .ok a => go a
  | .error r => .refused r

/-- R55, R60, R61: the block whose frame an engine bound to an index renders. An index outside the tape stands for a free
block (log entry 15); R61 reads no kind. -/
def signalBlock (c : Config) (i : Nat) : Except Refusal DataBlock :=
  match c.tape[i]? with
  | some b => if b.kind = .standardData then .ok b else .error (.blockHasNoFrame b.kind)
  | none => .ok (Config.freeBlock c i)

/-- R33 `TapeRead(b, i)`: byte `i` of the payload of block `b`, defined only for indices in range. -/
def tapeRead (c : Config) (b i : Nat) : Option Byte :=
  match c.tape[b]? with
  | some blk => blk.payload[i]?
  | none => none

end Sys2Proof.Machine
end

