-- ==== Sys2Proof/Machine/Ops.lean ====
section
/-! DEFINITION. The shared operations over the block's registers: finishing an operation and its outputs (R29), the capture
error (R96), beginning and ending a session (R100, R101: the block's analogue of taking an exception and returning from one),
the engine (R60, R61), the sequencer (R67, R68) and the capture decoder (R72 to R84). The meanings call them. -/

namespace Sys2Proof.Machine

/-! ## Outputs (R29) -/

/-- Ends an operation: the session it leaves, the events it emitted in order, and the result it returns. -/
def State.finish (s : State) (m : Session) (emitted : List OutputEvent) (result : Option OpResult) : State :=
  { s with m := m, events := s.events ++ emitted, result := result }

/-! ## Block Playback Engine (41_playback_engine.md) -/

/-- R60: a fresh engine instance for the block at an index. -/
def engFresh (blockIndex : Nat) (startTact : Nat) : EngState :=
  { block := blockIndex, startTact := startTact, phase := .notStarted, level := high }

/-- R61: queries the engine at a tact; its bound block gives the signal. -/
def engQuery (c : Config) (eng : EngState) (tact : Nat) : Except Refusal EngState :=
  match signalBlock c eng.block with
  | .error r => .error r
  | .ok b =>
    if tact < eng.startTact then .error .tactBeforeBlockStart
    else
      let sig := signal c b (tact - eng.startTact)
      .ok { eng with phase := sig.1, level := sig.2 }

/-! ## Tape Sequencer (42_tape_sequencer.md) -/

/-- R67: the registers at the beginning of a playback session. -/
def seqStart (c : Config) (startTact : Nat) : SeqState × EngState :=
  ({ blockIndex := 0, eof := c.tape.isEmpty }, engFresh 0 startTact)

/-- What R68's loop returns: the level, and the registers it leaves. -/
structure EarAnswer where
  level : Level
  seq : SeqState
  eng : EngState
  deriving DecidableEq, Repr

/-- R68's last lines when there is no next block: end of tape, and the level is high. -/
def endOfTape (seq : SeqState) (eng : EngState) : EarAnswer :=
  { level := high, seq := { seq with eof := true }, eng := { eng with level := high } }

/-- R68's pass when `seq.blockIndex` lies outside the tape, which no run reaches: the block there is free (log entry 15). Of
the two kinds with a slot it is a Description or a standard block, and there is no next block. -/
def seqOutsideTape (c : Config) (tact : Nat) (seq : SeqState) (eng : EngState) : Except Refusal EarAnswer :=
  if (Config.freeBlock c seq.blockIndex).kind = .description then .ok (endOfTape seq eng)
  else
    match engQuery c eng tact with
    | .error r => .error r
    | .ok eng =>
      if eng.phase = .completed then .ok (endOfTape seq eng)
      else .ok { level := eng.level, seq := seq, eng := eng }

/-- R68's loop, while `eof` is false: `blocks` are the tape's blocks from `seq.blockIndex` on. -/
def seqLoop (c : Config) (tact : Nat) : List DataBlock → SeqState → EngState → Except Refusal EarAnswer
  | [], seq, eng => seqOutsideTape c tact seq eng
  | b :: rest, seq, eng =>
    match b.kind with
    | .standardData =>
      match engQuery c eng tact with
      | .error r => .error r
      | .ok eng =>
        if eng.phase = .completed then
          match rest with
          | [] => .ok (endOfTape seq eng)
          | _ :: _ =>
            seqLoop c tact rest { seq with blockIndex := seq.blockIndex + 1 }
              (engFresh (seq.blockIndex + 1) (eng.startTact + totTacts c b))
        else .ok { level := eng.level, seq := seq, eng := eng }
    | .description =>
      match rest with
      | [] => .ok (endOfTape seq eng)
      | _ :: _ =>
        seqLoop c tact rest { seq with blockIndex := seq.blockIndex + 1 }
          (engFresh (seq.blockIndex + 1) eng.startTact)
    | .pureTone => .error (.blockKindNotSpecified .pureTone)
    | .pureData => .error (.blockKindNotSpecified .pureData)
    | .other => .error (.blockKindNotSpecified .other)

/-- R68: the EAR level of the tape at a tact. -/
def seqQuery (c : Config) (seq : SeqState) (eng : EngState) (tact : Nat) : Except Refusal EarAnswer :=
  if seq.eof then .ok { level := high, seq := seq, eng := eng }
  else seqLoop c tact (c.tape.drop seq.blockIndex) seq eng

/-! ## Capture Decoder (43_capture_decoder.md) -/

/-- R72: the registers at the beginning of a capture session. -/
def capFresh (tact : Nat) : CapState where
  phase := .none
  pilotCount := 0
  bitOffset := 0
  byteAcc := 0x00
  prevPulse := .noPulse
  buffer := []
  blockCount := 0
  lastEdgeTact := tact
  micLevel := high

/-- R72: no file has been created in this session. -/
def sinkFresh : SinkState := { fileCreated := false }

/-- The two names of a capture error; documentary only (R96, R97). -/
inductive CaptureErrorKind where
  | timing
  | framing
  deriving DecidableEq, Repr

/-- R96 `raise CaptureError(kind)`: the phase becomes `Error` and nothing else changes; the kind is not recorded. -/
def raiseCaptureError (_kind : CaptureErrorKind) (cap : CapState) : CapState := { cap with phase := .error }

/-- R76, R77, R81: the name of the error a pulse of a class raises. -/
def errorKindOf (k : PulseClass) : CaptureErrorKind := if k = .other then .timing else .framing

/-- R34 `BufAppend(v)`: the buffer is unbounded, so it cannot fail. -/
def bufAppend (cap : CapState) (v : Byte) : CapState := { cap with buffer := cap.buffer ++ [v] }

/-- The capture session after a pulse, and what was emitted. -/
structure CapAnswer where
  cap : CapState
  sink : SinkState
  emitted : List OutputEvent
  deriving DecidableEq, Repr

/-- A decoder step that emits nothing. -/
def quiet (cap : CapState) (sink : SinkState) : CapAnswer := { cap := cap, sink := sink, emitted := [] }

/-- R83: the block that a completion delivers. -/
def capturedBlock (c : Config) (cap : CapState) : DataBlock where
  kind := .standardData
  payload := cap.buffer
  pilotPulseCount := cap.pilotCount
  pilotIsHeaderLength := countIsHeaderLength c cap.pilotCount
  pauseAfterMs := c.pauseMs

/-- R83: the name suggestion, made when the payload is header-shaped. -/
def nameSuggestion (c : Config) (payload : List Byte) : List OutputEvent :=
  if headerShaped c payload then [.setName (nameOf c payload)] else []

/-- R83: delivers the finished block. The first completion of a session creates the file and alone may suggest a name. -/
def capDeliver (c : Config) (cap : CapState) (sink : SinkState) : CapAnswer :=
  let done := { cap with blockCount := cap.blockCount + 1, phase := .none }
  let block := [OutputEvent.appendBlock (capturedBlock c cap)]
  if done.blockCount = 1 then
    { cap := done, sink := { fileCreated := true }
      emitted := [.createFile] ++ nameSuggestion c cap.buffer ++ block }
  else { cap := done, sink := sink, emitted := block }

/-- R75: a pulse in phase `None`. -/
def edgeInNone (k : PulseClass) (cap : CapState) : CapState :=
  if k = .pilot then { cap with phase := .pilot, pilotCount := 1 } else cap

/-- R76: a pulse in phase `Pilot`. -/
def edgeInPilot (c : Config) (k : PulseClass) (cap : CapState) : CapState :=
  if k = .pilot then { cap with pilotCount := cap.pilotCount + 1 }
  else if k = .sync1 ∧ c.minPilotCount ≤ cap.pilotCount then { cap with phase := .sync1 }
  else raiseCaptureError (errorKindOf k) cap

/-- R77: a pulse in phase `Sync1`. -/
def edgeInSync1 (k : PulseClass) (cap : CapState) : CapState :=
  if k = .sync2 then
    { cap with phase := .sync2, bitOffset := 0, byteAcc := 0x00, prevPulse := .noPulse, buffer := [] }
  else raiseCaptureError (errorKindOf k) cap

/-- R79: the confirmed bit enters the byte; the eighth completes it. -/
def confirmBit (bit : Bool) (cap : CapState) : CapState :=
  let acc := if bit then cap.byteAcc ||| bitMask cap.bitOffset else cap.byteAcc
  let cap := { cap with prevPulse := .noPulse, phase := .data }
  if cap.bitOffset + 1 = 8 then { bufAppend cap acc with byteAcc := 0x00, bitOffset := 0 }
  else { cap with byteAcc := acc, bitOffset := cap.bitOffset + 1 }

/-- R79: a half-pulse of a bit, in phase `Data` or `Sync2`. -/
def halfPulse (half : PrevPulse) (bit : Bool) (cap : CapState) : CapState :=
  if cap.prevPulse = .noPulse then { cap with prevPulse := half, phase := .data }
  else if cap.prevPulse = half then confirmBit bit cap
  else raiseCaptureError .framing cap

/-- R78 to R81: a pulse in phase `Data` or `Sync2`. -/
def edgeInData (c : Config) (k : PulseClass) (cap : CapState) (sink : SinkState) : CapAnswer :=
  match k with
  | .bit0 => quiet (halfPulse .bit0 false cap) sink
  | .bit1 => quiet (halfPulse .bit1 true cap) sink
  | .term => if cap.atByteBoundary then capDeliver c cap sink else quiet (raiseCaptureError .framing cap) sink
  | .pilot => quiet (raiseCaptureError (errorKindOf k) cap) sink
  | .sync1 => quiet (raiseCaptureError (errorKindOf k) cap) sink
  | .sync2 => quiet (raiseCaptureError (errorKindOf k) cap) sink
  | .other => quiet (raiseCaptureError (errorKindOf k) cap) sink

/-- R74: dispatches a classified pulse by the phase. -/
def capPulse (c : Config) (k : PulseClass) (cap : CapState) (sink : SinkState) : CapAnswer :=
  match cap.phase with
  | .none => quiet (edgeInNone k cap) sink
  | .pilot => quiet (edgeInPilot c k cap) sink
  | .sync1 => quiet (edgeInSync1 k cap) sink
  | .sync2 => edgeInData c k cap sink
  | .data => edgeInData c k cap sink
  | .error => quiet cap sink

/-- R74, R82: one observed signal transition. The new level is no argument: no rule of the phase machine reads it. -/
def capEdge (c : Config) (cap : CapState) (sink : SinkState) (tact : Nat) : Except Refusal CapAnswer :=
  if cap.phase = .error then .ok (quiet cap sink)
  else if tact < cap.lastEdgeTact then .error .tactBeforeLastEdge
  else .ok (capPulse c (classify c (tact - cap.lastEdgeTact)) { cap with lastEdgeTact := tact } sink)

/-- R84: asks the silence predicate at a tact. Below the last edge R84 states no result, and the answer is a free value
that the counter numbers (log entry 14). -/
def State.askSilence (s : State) (cap : CapState) (tact : Nat) : Bool × State :=
  (if tact < cap.lastEdgeTact then Config.freeSilent s.freeCount else silentAt s.cfg cap.lastEdgeTact tact,
    { s with freeCount := if tact < cap.lastEdgeTact then s.freeCount + 1 else s.freeCount })

/-! ## Beginning and ending a session (R94, R100, R101) -/

/-- R88: enters Load at a tact. -/
def State.enterLoad (s : State) (tact : Nat) : State :=
  s.finish (.load (seqStart s.cfg tact).1 (seqStart s.cfg tact).2) [.enteredLoad] none

/-- R88: enters Save at a tact. -/
def State.enterSave (s : State) (tact : Nat) : State :=
  s.finish (.save (capFresh tact) sinkFresh) [.enteredSave] none

/-- R89, R90, R93: what ending a session emits. -/
def endEvents : Session → List OutputEvent
  | .passive => []
  | .load _ _ => [.leftLoad]
  | .save _ sink => (if sink.fileCreated then [.finalize] else []) ++ [.leftSave]

/-- R100: ends the session. Every register of it is discarded, nothing is saved, and the mode becomes `Passive`. -/
def State.endSession (s : State) : State := s.finish .passive (endEvents s.m) none

end Sys2Proof.Machine
end

