-- ==== Sys2Proof/Machine/CaptureOps.lean ====
section
/-! DEFINITION. Format C, capture: the decoder's operations (43_capture_decoder.md R72 to R84), issued on their own in a Save
session (log entry 6); CAP.CLASSIFY reads only the configuration and runs in every mode. -/

namespace Sys2Proof.Machine

/-- CAP.INIT tact (R72): creates the capture session's registers anew. -/
def execCapInit (tact : Nat) (s : State) : Outcome :=
  withSave s fun _ _ => .next (s.finish (.save (capFresh tact) sinkFresh) [] none)

/-- CAP.CLASSIFY d (R73): the class of a pulse of `d` tacts. -/
def execCapClassify (d : Nat) (s : State) : Outcome :=
  .next (s.finish s.m [] (some (.pulseClass (classify s.cfg d))))

/-- CAP.ONEDGE tact, level (R74 to R82): one observed signal transition; the level is not read. -/
def execCapOnedge (tact : Nat) (_level : Level) (s : State) : Outcome :=
  withSave s fun cap sink =>
    orRefuse (capEdge s.cfg cap sink tact) fun a => .next (s.finish (.save a.cap a.sink) a.emitted none)

/-- CAP.COMPLETE (R83): delivers the finished block. -/
def execCapComplete (s : State) : Outcome :=
  withSave s fun cap sink =>
    .next (s.finish (.save (capDeliver s.cfg cap sink).cap (capDeliver s.cfg cap sink).sink)
      (capDeliver s.cfg cap sink).emitted none)

/-- CAP.SILENT tact (R84): the silence predicate; it writes no register of the block. -/
def execCapSilent (tact : Nat) (s : State) : Outcome :=
  withSave s fun cap _ =>
    let (silent, s) := s.askSilence cap tact
    .next (s.finish s.m [] (some (.silent silent)))

end Sys2Proof.Machine
end

