-- ==== Sys2Proof/Machine/EventOps.lean ====
section
/-! DEFINITION. Format O: the output events (R29, R93). An event issued as an operation is `emit e` of R10: it is appended to
its stream and nothing else changes (log entry 8). -/

namespace Sys2Proof.Machine

/-- `emit e` (R10). -/
def State.emit (s : State) (e : OutputEvent) : State := s.finish s.m [e] none

/-- The notification `enteredLoad`. -/
def execEnteredLoad (s : State) : Outcome := .next (s.emit .enteredLoad)

/-- The notification `leftLoad`. -/
def execLeftLoad (s : State) : Outcome := .next (s.emit .leftLoad)

/-- The notification `enteredSave`. -/
def execEnteredSave (s : State) : Outcome := .next (s.emit .enteredSave)

/-- The notification `leftSave`. -/
def execLeftSave (s : State) : Outcome := .next (s.emit .leftSave)

/-- The sink call `createFile()`. -/
def execCreateFile (s : State) : Outcome := .next (s.emit .createFile)

/-- The sink call `setName(name)`. -/
def execSetName (name : Name) (s : State) : Outcome := .next (s.emit (.setName name))

/-- The sink call `appendBlock(block)`. -/
def execAppendBlock (block : DataBlock) (s : State) : Outcome := .next (s.emit (.appendBlock block))

/-- The sink call `finalize()`. -/
def execFinalize (s : State) : Outcome := .next (s.emit .finalize)

end Sys2Proof.Machine
end

