-- ==== Sys2Proof/Machine/HostOps.lean ====
section
/-! DEFINITION. Format H: the four host operations of the Mode Controller (44_mode_controller.md R86 to R92). -/

namespace Sys2Proof.Machine

/-- RESET (R87): machine start. Any session is discarded without events; the event streams already delivered stay
delivered (R107). -/
def execReset (s : State) : Outcome :=
  .next { s with clk := ⟨0⟩, m := .passive, result := none }

/-- FETCH in mode `Passive` (R88): the two entry addresses begin a session. -/
def fetchPassive (pc : Nat) (tact : Nat) (s : State) : Outcome :=
  if pc = s.cfg.loadEntryAddr then .next (s.enterLoad tact)
  else if pc = s.cfg.saveEntryAddr then .next (s.enterSave tact)
  else .next (s.finish s.m [] none)

/-- FETCH in mode `Load` (R89): the error handler or end of tape ends the session. -/
def fetchLoad (pc : Nat) (seq : SeqState) (s : State) : Outcome :=
  if pc = s.cfg.errorHandlerAddr ∨ seq.eof = true then .next s.endSession
  else .next (s.finish s.m [] none)

/-- FETCH in mode `Save` (R90): the error handler, a capture error or silence ends the session. -/
def fetchSave (pc : Nat) (tact : Nat) (cap : CapState) (s : State) : Outcome :=
  if pc = s.cfg.errorHandlerAddr ∨ cap.phase = .error then .next s.endSession
  else
    let (silent, s) := s.askSilence cap tact
    if silent then .next s.endSession else .next (s.finish s.m [] none)

/-- FETCH pc, tact (R86, R88, R89, R90). -/
def execFetch (pc : Nat) (tact : Nat) (s : State) : Outcome :=
  timed tact s fun s =>
    match s.m with
    | .passive => fetchPassive pc tact s
    | .load seq _ => fetchLoad pc seq s
    | .save cap _ => fetchSave pc tact cap s

/-- EARRD tact (R86, R91): in `Load` the sequencer answers; otherwise the level is the resting high. -/
def execEarrd (tact : Nat) (s : State) : Outcome :=
  timed tact s fun s =>
    match s.m with
    | .load seq eng =>
      orRefuse (seqQuery s.cfg seq eng tact) fun a =>
        .next (s.finish (.load a.seq a.eng) [] (some (.level a.level)))
    | .passive => .next (s.finish s.m [] (some (.level high)))
    | .save _ _ => .next (s.finish s.m [] (some (.level high)))

/-- MICWR tact, level (R86, R92): in `Save` a changed level is an edge; otherwise the write is ignored. -/
def execMicwr (tact : Nat) (level : Level) (s : State) : Outcome :=
  timed tact s fun s =>
    match s.m with
    | .save cap sink =>
      if level = cap.micLevel then .next (s.finish s.m [] none)
      else
        orRefuse (capEdge s.cfg { cap with micLevel := level } sink tact) fun a =>
          .next (s.finish (.save a.cap a.sink) a.emitted none)
    | .passive => .next (s.finish s.m [] none)
    | .load _ _ => .next (s.finish s.m [] none)

end Sys2Proof.Machine
end

