-- ==== Sys2Proof/Machine/PlaybackOps.lean ====
section
/-! DEFINITION. Format C, playback: the engine's and the sequencer's operations (41_playback_engine.md R60, R61;
42_tape_sequencer.md R67, R68), issued on their own in a Load session (log entry 6). -/

namespace Sys2Proof.Machine

/-- ENG.NEW blockIndex, startTact (R60): a fresh engine instance bound to the block at an index; it reads nothing, so any
index does. -/
def execEngNew (blockIndex : Nat) (startTact : Nat) (s : State) : Outcome :=
  withLoad s fun seq _ =>
    .next (s.finish (.load seq (engFresh blockIndex startTact)) [] none)

/-- ENG.SIGNALAT tact (R61): the signal level of the bound block. -/
def execEngSignalat (tact : Nat) (s : State) : Outcome :=
  withLoad s fun seq eng =>
    orRefuse (engQuery s.cfg eng tact) fun eng =>
      .next (s.finish (.load seq eng) [] (some (.level eng.level)))

/-- SEQ.INITPLAY startTact (R67): begins the playback session at the first block. -/
def execSeqInitplay (startTact : Nat) (s : State) : Outcome :=
  withLoad s fun _ _ =>
    .next (s.finish (.load (seqStart s.cfg startTact).1 (seqStart s.cfg startTact).2) [] none)

/-- SEQ.GETEARBIT tact (R68): the EAR level of the tape, advancing through blocks as needed. -/
def execSeqGetearbit (tact : Nat) (s : State) : Outcome :=
  withLoad s fun seq eng =>
    orRefuse (seqQuery s.cfg seq eng tact) fun a =>
      .next (s.finish (.load a.seq a.eng) [] (some (.level a.level)))

end Sys2Proof.Machine
end

