-- ==== Sys2Proof/Machine/PulseOps.lean ====
section
/-! DEFINITION. Format P: the pulse symbols of the line code (R44 to R47). A symbol is a duration at a level; issued as an
operation it answers its row of R44 under the configuration and changes no register (log entry 9). -/

namespace Sys2Proof.Machine

/-- R44: a symbol's row, the PAUSE window having the length it is given. -/
def pulseInfo (c : Config) (window : Nat) (p : PulseSymbol) : PulseInfo where
  symbol := p
  length := symbolLength c window p
  level := symbolLevel p
  decoderClass := symbolClass p

/-- A pulse symbol that is a pulse answers its row. -/
def answerPulse (p : PulseSymbol) (s : State) : Outcome :=
  .next (s.finish s.m [] (some (.pulse (pulseInfo s.cfg 0 p))))

/-- The standard block bound to the engine of a Load session, if there is one: the `B` of `pauseTacts(B)`. -/
def boundStandardBlock (s : State) : Option DataBlock :=
  match s.m with
  | .load _ eng =>
    match s.cfg.tape[eng.block]? with
    | some b => if b.kind = .standardData then some b else none
    | none => none
  | .passive => none
  | .save _ _ => none

/-- PILOT (R44). -/
def execPilot (s : State) : Outcome := answerPulse .pilot s

/-- SYNC1 (R44). -/
def execSync1 (s : State) : Outcome := answerPulse .sync1 s

/-- SYNC2 (R44). -/
def execSync2 (s : State) : Outcome := answerPulse .sync2 s

/-- BIT0 (R44): one half-pulse of a 0 bit. -/
def execBit0 (s : State) : Outcome := answerPulse .bit0 s

/-- BIT1 (R44): one half-pulse of a 1 bit. -/
def execBit1 (s : State) : Outcome := answerPulse .bit1 s

/-- TERM (R44). -/
def execTerm (s : State) : Outcome := answerPulse .term s

/-- PAUSE (R44, R49): the window of the bound block. Where no standard block is bound the spec states no length, and the
length is a free value (log entry 10). -/
def execPause (s : State) : Outcome :=
  match boundStandardBlock s with
  | some b => .next (s.finish s.m [] (some (.pulse (pulseInfo s.cfg (pauseTacts s.cfg b) .pause))))
  | none =>
    .next ({ s with freeCount := s.freeCount + 1 }.finish s.m []
      (some (.pulse (pulseInfo s.cfg (Config.freePauseTacts s.freeCount) .pause))))

end Sys2Proof.Machine
end

