-- ==== Sys2Proof/Machine/Dispatch.lean ====
section
/-! DEFINITION. The meaning of every operation: one arm per constructor, each one direct call. -/

namespace Sys2Proof.Machine

def exec (i : Instr) (s : State) : Host.Outcome State Fault Refusal :=
  match i with
  -- format H
  | .reset => Sys2Proof.Machine.execReset s
  | .fetch pc tact => Sys2Proof.Machine.execFetch pc tact s
  | .earrd tact => Sys2Proof.Machine.execEarrd tact s
  | .micwr tact level => Sys2Proof.Machine.execMicwr tact level s
  -- format C
  | .engNew blockIndex startTact => Sys2Proof.Machine.execEngNew blockIndex startTact s
  | .engSignalat tact => Sys2Proof.Machine.execEngSignalat tact s
  | .seqInitplay startTact => Sys2Proof.Machine.execSeqInitplay startTact s
  | .seqGetearbit tact => Sys2Proof.Machine.execSeqGetearbit tact s
  | .capInit tact => Sys2Proof.Machine.execCapInit tact s
  | .capClassify d => Sys2Proof.Machine.execCapClassify d s
  | .capOnedge tact level => Sys2Proof.Machine.execCapOnedge tact level s
  | .capComplete => Sys2Proof.Machine.execCapComplete s
  | .capSilent tact => Sys2Proof.Machine.execCapSilent tact s
  -- format O
  | .enteredLoad => Sys2Proof.Machine.execEnteredLoad s
  | .leftLoad => Sys2Proof.Machine.execLeftLoad s
  | .enteredSave => Sys2Proof.Machine.execEnteredSave s
  | .leftSave => Sys2Proof.Machine.execLeftSave s
  | .createFile => Sys2Proof.Machine.execCreateFile s
  | .setName name => Sys2Proof.Machine.execSetName name s
  | .appendBlock block => Sys2Proof.Machine.execAppendBlock block s
  | .finalize => Sys2Proof.Machine.execFinalize s
  -- format P
  | .pilot => Sys2Proof.Machine.execPilot s
  | .sync1 => Sys2Proof.Machine.execSync1 s
  | .sync2 => Sys2Proof.Machine.execSync2 s
  | .bit0 => Sys2Proof.Machine.execBit0 s
  | .bit1 => Sys2Proof.Machine.execBit1 s
  | .term => Sys2Proof.Machine.execTerm s
  | .pause => Sys2Proof.Machine.execPause s

end Sys2Proof.Machine
end

