-- ==== Sys2Proof/Machine/Step.lean ====
section
/-! DEFINITION. One step: the host's next pending request is taken from the front of `input`, decoded and performed. With no
request pending the block is inert and holds its state (R105). -/

namespace Sys2Proof.Machine

/-- One step. An operation is performed only under a configuration that meets R6 (a) to (f) (R11, U8). -/
def step (s : State) : Host.Outcome State Fault Refusal :=
  if s.input = [] then .next s
  else if s.cfg.ParametersWF then
    match decode s.cfg s.input with
    | .ok (i, rest) => exec i { s with input := rest }
    | .error e => .refused (.badOperationWord e)
  else .refused .configNotWellFormed

/-- The state with the table word `w` as the host's pending request (log entry 2). -/
def State.withFetchWord (s : State) (nbits w : Nat) : State := { s with input := tableBits s.cfg nbits w }

end Sys2Proof.Machine
end

