-- ==== Sys2Proof/Machine/EngineLoop.lean ====
section
/-! DEFINITION. The source's iterative playback algorithm (41_playback_engine.md R62) with the hidden registers of 10_state.md
R19. They are derived, not architectural: `State` does not hold them and no meaning reads them. The closed form of R61 is the
model's meaning; the statements say that this loop gives the same answers. -/

namespace Sys2Proof.Machine

/-- R62: the registers an implementation may keep: the sub-unit counter, the tact at which the current pulse began, and
the level last returned. -/
structure LoopRegs where
  pulseIndex : Nat
  unitStart : Nat
  level : Level
  deriving DecidableEq, Repr

/-- R62, at ENG.NEW. -/
def loopInit (b : DataBlock) (startTact : Nat) : LoopRegs :=
  { pulseIndex := 0, unitStart := startTact, level := pulseLevel b 0 }

/-- R62's while loop over the pulses from `pulseIndex` on: each boundary passed accumulates the elapsed length and flips
the level. -/
def loopAdvance (c : Config) (tact : Nat) : List PulseSymbol → LoopRegs → LoopRegs
  | [], r => r
  | p :: ps, r =>
    if r.unitStart + pulseLength c p ≤ tact then
      loopAdvance c tact ps
        { pulseIndex := r.pulseIndex + 1, unitStart := r.unitStart + pulseLength c p, level := !r.level }
    else r

/-- R62, at ENG.SIGNALAT: the registers after the query, and the phase it shows. -/
def loopQuery (c : Config) (b : DataBlock) (tact : Nat) (r : LoopRegs) : LoopRegs × EngPhase :=
  let r := loopAdvance c tact ((frame b).drop r.pulseIndex) r
  match (frame b)[r.pulseIndex]? with
  | none => ({ r with level := high }, if tact < r.unitStart + pauseTacts c b then .pause else .completed)
  | some p => (r, symbolPhase p)

/-- R62: the registers after a sequence of queries of one engine instance. -/
def loopAfter (c : Config) (b : DataBlock) (startTact : Nat) (tacts : List Nat) : LoopRegs :=
  tacts.foldl (fun r t => (loopQuery c b t r).1) (loopInit b startTact)

/-- R62: the payload byte being played while the phase is Data. -/
def LoopRegs.byteIndex (b : DataBlock) (r : LoopRegs) : Nat := (r.pulseIndex - b.pilotPulseCount - 2) / 2 / 8

/-- R62: the bit mask within that byte, `0x80 >> (q mod 8)`. -/
def LoopRegs.bitMask (b : DataBlock) (r : LoopRegs) : Byte :=
  0x80#8 >>> ((r.pulseIndex - b.pilotPulseCount - 2) / 2 % 8)

end Sys2Proof.Machine
end

