-- ==== Sys2Proof/Machine/Trace.lean ====
section
/-! DEFINITION. Sequences of operations and the trace syntax of 30_encoding.md R57 and R58: running a list of operations,
admissible traces, the pseudo-operations EDGES and EARSCAN, and the text of a host trace. No operation's meaning reads
this file. -/

namespace Sys2Proof.Machine

/-! ## Sequences of operations -/

/-- Performs operations in the order given (R40), stopping at the first fault or refusal. -/
def execAll : List Instr → State → Outcome
  | [], s => .next s
  | i :: is, s =>
    match exec i s with
    | .next s' => execAll is s'
    | .fault f => .fault f
    | .refused r => .refused r

/-- The results the operations return, one by one, up to a stop. -/
def resultsOf : List Instr → State → List (Option OpResult)
  | [], _ => []
  | i :: is, s =>
    match exec i s with
    | .next s' => s'.result :: resultsOf is s'
    | .fault _ => []
    | .refused _ => []

/-- The tact operand of FETCH, EARRD and MICWR, the operations R86 checks. -/
def timedTact : Instr → Option Nat
  | .fetch _ tact => some tact
  | .earrd tact => some tact
  | .micwr tact _ => some tact
  | _ => none

/-- R57: a trace is admissible when its tacts are non-decreasing. -/
def admissible (trace : List Instr) : Bool := decide ((trace.filterMap timedTact).Pairwise (· ≤ ·))

/-! ## Pseudo-operations (R58) -/

/-- The MIC writes after the first of EDGES: each duration ends with the level flipped. -/
def edgesAfter (tact : Nat) (level : Level) : List Nat → List Instr
  | [] => []
  | d :: ds => .micwr (tact + d) (!level) :: edgesAfter (tact + d) (!level) ds

/-- R58 `EDGES t0 lvl0 [d1, ..., dk]`. -/
def edges (t0 : Nat) (lvl0 : Level) (ds : List Nat) : List Instr := .micwr t0 lvl0 :: edgesAfter t0 lvl0 ds

/-- R58 `EARSCAN a b`. -/
def earscan (a b : Nat) : List Instr := (List.range (b + 1 - a)).map fun k => .earrd (a + k)

/-! ## Text (R57) -/

/-- A number in decimal. -/
def decimalText (n : Nat) : List Char := Nat.toDigits 10 n

/-- A hexadecimal digit, in capitals. -/
def hexDigit (d : Nat) : Char := if d < 10 then Char.ofNat (48 + d) else Char.ofNat (55 + d)

/-- The low `digits` hexadecimal digits of a number. -/
def hexText : Nat → Nat → List Char
  | 0, _ => []
  | digits + 1, n => hexText digits (n / 16) ++ [hexDigit (n % 16)]

/-- A level as `0` or `1`. -/
def levelText (l : Level) : Char := if l then '1' else '0'

/-- The line of a host operation; the other formats have no line. -/
def traceText (c : Config) : Instr → Option (List Char)
  | .reset => some ['R', 'E', 'S', 'E', 'T']
  | .fetch pc tact =>
    some (['F', 'E', 'T', 'C', 'H', ' ', 'p', 'c', '=', '0', 'x'] ++ hexText ((c.addrBits + 3) / 4) pc ++
      [' ', 't', '='] ++ decimalText tact)
  | .earrd tact => some (['E', 'A', 'R', 'R', 'D', ' ', 't', '='] ++ decimalText tact)
  | .micwr tact level =>
    some (['M', 'I', 'C', 'W', 'R', ' ', 't', '='] ++ decimalText tact ++ [' ', 'l', 'v', 'l', '='] ++
      [levelText level])
  | _ => none

/-- What a line shows after `->`: the level that EARRD returned. -/
def resultText : Option OpResult → List Char
  | some (.level l) => [' ', '-', '>', ' ', levelText l]
  | _ => []

end Sys2Proof.Machine
end

