-- ==== Sys2Proof/Safety.lean ====
section
/-! DEFINITION. The terms in which claims are made: the invariants of the registers, the order of the playback phases, the
closed form of a playback session (R70), the protocol of the output streams (R93), and safe runs. -/

namespace Sys2Proof.Machine

/-! ## Safe runs -/

/-- A run of operations that never stops. -/
def SafeRun (trace : List Instr) (s : State) : Prop := ∃ t, execAll trace s = .next t

/-- The four host operations (R56 format H): the only ones the host issues. -/
def isHostOp : Instr → Bool
  | .reset => true
  | .fetch _ _ => true
  | .earrd _ => true
  | .micwr _ _ => true
  | _ => false

/-! ## Register invariants -/

/-- The Load registers: the sequencer points into the tape; end of tape leaves the index at the last block; an engine that
has not started, or is in its pause or completed, is at the resting level (R17, R18, R67, R68). -/
structure LoadInv (c : Config) (seq : SeqState) (eng : EngState) : Prop where
  indexInTape : c.tape = [] ∨ seq.blockIndex < c.tape.length
  emptyTape : c.tape = [] → seq = { blockIndex := 0, eof := true }
  eofAtLast : seq.eof = true → c.tape = [] ∨ seq.blockIndex + 1 = c.tape.length
  restingHigh : eng.phase = .notStarted ∨ eng.phase = .pause ∨ eng.phase = .completed → eng.level = high

/-- The Save registers: the invariant of R22, the byte boundary after an accepted sync2 pulse (R77, R78), the pilot count
that each phase has seen (R75, R76), and `sink.fileCreated` exactly when a block has completed (R83). -/
structure SaveInv (c : Config) (cap : CapState) (sink : SinkState) : Prop where
  offsetInByte : cap.bitOffset < 8
  lowBitsZero : ∀ j, j + cap.bitOffset < 8 → cap.byteAcc.getLsbD j = false
  sync2Fresh : cap.phase = .sync2 → cap.atByteBoundary = true ∧ cap.buffer = []
  pilotSeen : cap.phase = .pilot → 1 ≤ cap.pilotCount
  enoughPilots : cap.phase = .sync1 ∨ cap.phase = .sync2 ∨ cap.phase = .data → c.minPilotCount ≤ cap.pilotCount
  fileIffBlock : sink.fileCreated = true ↔ 1 ≤ cap.blockCount

/-- The registers of the running session, if there is one, meet their invariant. -/
def State.Inv (s : State) : Prop :=
  match s.m with
  | .passive => True
  | .load seq eng => LoadInv s.cfg seq eng
  | .save cap sink => SaveInv s.cfg cap sink

/-- What host operations keep besides: the session's reference tacts are not after the last operation's tact, and the
engine is bound to the sequencer's block. A component operation issued on its own may carry any tact. -/
def State.HostInv (s : State) : Prop :=
  match s.m with
  | .passive => True
  | .load seq eng => eng.startTact ≤ s.clk.last ∧ eng.block = seq.blockIndex
  | .save cap _ => cap.lastEdgeTact ≤ s.clk.last

/-! ## Playback -/

/-- The order of R63: NotStarted < Pilot < Sync < Data < TermSync < Pause < Completed. -/
def EngPhase.rank : EngPhase → Nat
  | .notStarted => 0
  | .pilot => 1
  | .sync => 2
  | .data => 3
  | .termSync => 4
  | .pause => 5
  | .completed => 6

/-- R70: the tact at which slot `j` of a session begun at `t0` starts. -/
def slotStart (c : Config) (t0 : Nat) (j : Nat) : Nat :=
  t0 + ((c.tape.take j).map fun b => (slotTacts c b).getD 0).sum

/-- R70: slot `j` holds a standard block and the tact `t`. -/
def SlotHolds (c : Config) (t0 t : Nat) (j : Nat) (b : DataBlock) : Prop :=
  c.tape[j]? = some b ∧ b.kind = .standardData ∧ slotStart c t0 j ≤ t ∧ t < slotStart c t0 (j + 1)

/-- R50 in counts: the length of a block's signal from the numbers of its 1 bits and 0 bits. -/
def ones (payload : List Byte) : Nat := (payload.flatMap byteBits).count true

/-- The number of 0 bits of a payload (R50). -/
def zeros (payload : List Byte) : Nat := (payload.flatMap byteBits).count false

/-! ## Capture -/

/-- The first pulse boundary of a block's signal at which the level changes, coming from high (R95): 0 when the pilot
count is even, 1 when it is odd. -/
def firstEdge (b : DataBlock) : Nat := b.pilotPulseCount % 2

/-- R95: one CAP.ONEDGE at the tact `at k` of every pulse boundary `k` from the first edge to the end of the signal, with
the level after the edge. -/
def signalEdges (b : DataBlock) (at_ : Nat → Nat) : List Instr :=
  (List.range (nPulses b + 1 - firstEdge b)).map fun j =>
    .capOnedge (at_ (firstEdge b + j)) (if firstEdge b + j < nPulses b then pulseLevel b (firstEdge b + j) else high)

/-- Edges fed to the decoder from a tact on, each a duration after the one before. -/
def onEdges (tact : Nat) : List Nat → List Instr
  | [] => []
  | d :: ds => .capOnedge (tact + d) high :: onEdges (tact + d) ds

/-- The previous-pulse value of a half-pulse of a bit (R23). -/
def halfOf (bit : Bool) : PrevPulse := if bit then .bit1 else .bit0

/-- The class of a half-pulse of a bit (R44). -/
def classOf (bit : Bool) : PulseClass := if bit then .bit1 else .bit0

/-- The decoder's registers are between bits of a byte-aligned buffer: ready for the next byte of data. -/
structure ReadyForByte (cap : CapState) : Prop where
  inData : cap.phase = .sync2 ∨ cap.phase = .data
  offsetZero : cap.bitOffset = 0
  accZero : cap.byteAcc = 0x00
  noHalf : cap.prevPulse = .noPulse

/-! ## Output streams (R93) -/

/-- Where the two streams stand: between sessions, in a Load session, or in a Save session before its file, after
`createFile`, after `setName`, after a block, or after `finalize`. -/
inductive StreamPhase where
  | idle
  | loading
  | saving
  | fileCreated
  | named
  | blocks
  | finalized
  deriving DecidableEq, Repr

/-- One event of the streams; none where R93's order forbids it. -/
def StreamPhase.next : StreamPhase → OutputEvent → Option StreamPhase
  | .idle, .enteredLoad => some .loading
  | .idle, .enteredSave => some .saving
  | .loading, .leftLoad => some .idle
  | .saving, .createFile => some .fileCreated
  | .saving, .leftSave => some .idle
  | .fileCreated, .setName _ => some .named
  | .fileCreated, .appendBlock _ => some .blocks
  | .named, .appendBlock _ => some .blocks
  | .blocks, .appendBlock _ => some .blocks
  | .blocks, .finalize => some .finalized
  | .finalized, .leftSave => some .idle
  | _, _ => none

/-- Where the streams stand after a list of events, begun between sessions. -/
def streamPhase (events : List OutputEvent) : Option StreamPhase :=
  events.foldl (fun p e => p.bind (·.next e)) (some .idle)

/-- Where R93 says the streams stand in a session. -/
def sessionStream : Session → StreamPhase
  | .passive => .idle
  | .load _ _ => .loading
  | .save _ sink => if sink.fileCreated then .blocks else .saving

/-- The events after the first `n` follow R93's protocol up to the running session. The first `n` are those emitted before
the last RESET, which may cut a session short. -/
def State.StreamsInOrderSince (s : State) (n : Nat) : Prop := streamPhase (s.events.drop n) = some (sessionStream s.m)

/-- The streams follow R93's protocol up to the running session, from machine start on. -/
def State.StreamsInOrder (s : State) : Prop := s.StreamsInOrderSince 0

end Sys2Proof.Machine
end

