-- ==== Sys2Proof/Certificates/Slice0/Obligations.lean ====
section
/-! DEFINITION. The statements for the provers, family by family: operation words and the step, the host operations, the
playback engine, the tape sequencer, the capture decoder, the events and pulse symbols, the line code, and the rules of the
whole machine. A rule of the spec that is the spec's own decision D<n> is named so. -/

open Sys2Proof Sys2Proof.Machine

/-! ## Operation words and the step -/

/-- R56 (the bit order and the widths of `blockIndex`, `name` and `block` are the model's choices, log entries 3 and 4):
an operation word, with anything after it, decodes to its operation with every operand. -/
def Obligations.OperationWordRoundTrip : Prop :=
  ∀ (c : Config) (i : Instr) (rest : List Bool),
    i.wellFormed c = true → decode c (encode c i ++ rest) = .ok (i, rest)

/-- R56 (log entries 3 and 4): the other direction. Whatever decodes is the word of the operation it decodes to, and that
operation is well-formed. -/
def Obligations.DecodedBitsAreTheWord : Prop :=
  ∀ (c : Config) (bits rest : List Bool) (i : Instr),
    decode c bits = .ok (i, rest) → i.wellFormed c = true ∧ bits = encode c i ++ rest

/-- The words of 95_test_vectors.md V-E7 and one of each other family, at `ADDR_BITS = 16` and `TACT_BITS = 64`. -/
def Obligations.SpecWordsDecode : Prop :=
  ∀ (c : Config), c.addrBits = 16 → c.tactBits = 64 →
    decode c (natToBits 8 0x00) = .ok (.reset, []) ∧
    decode c (natToBits 8 0x01 ++ natToBits 16 0x056C ++ natToBits 64 0x00000000000003E8) =
      .ok (.fetch 0x056C 1000, []) ∧
    decode c (natToBits 8 0x02 ++ natToBits 64 0x00000000000003FC) = .ok (.earrd 1020, []) ∧
    decode c (natToBits 8 0x03 ++ natToBits 64 0x00000000000013AD ++ [false]) = .ok (.micwr 5037 low, []) ∧
    decode c (natToBits 8 0x11 ++ natToBits 64 20) = .ok (.engSignalat 20, []) ∧
    decode c (natToBits 8 0x20) = .ok (.enteredLoad, []) ∧
    decode c (natToBits 8 0x36) = .ok (.pause, [])

/-- R56, U20: the numbers 0x04 to 0x0F, 0x14 to 0x17, 0x1D to 0x1F, 0x24 to 0x27, 0x2C to 0x2F and 0x37 to 0xFF name
nothing; the decoder refuses them and so does a step that meets one. -/
def Obligations.UnassignedNumbersRefused : Prop :=
  ∀ (c : Config) (n : Nat) (rest : List Bool),
    (0x04 ≤ n ∧ n ≤ 0x0F ∨ 0x14 ≤ n ∧ n ≤ 0x17 ∨ 0x1D ≤ n ∧ n ≤ 0x1F ∨ 0x24 ≤ n ∧ n ≤ 0x27 ∨
      0x2C ≤ n ∧ n ≤ 0x2F ∨ 0x37 ≤ n ∧ n ≤ 0xFF) →
    decode c (natToBits 8 n ++ rest) = .error (.unknownOperation n) ∧
    ∀ s : State, s.cfg = c → c.ParametersWF → s.input = natToBits 8 n ++ rest →
      step s = .refused (.badOperationWord (.unknownOperation n))

/-- A step performs the operation that the pending request decodes to, on the state without the request's bits (log entry
2), under a configuration that meets R6 (a) to (f). -/
def Obligations.StepPerformsTheRequest : Prop :=
  ∀ (s : State) (i : Instr) (rest : List Bool),
    s.cfg.ParametersWF → s.input = encode s.cfg i ++ rest → i.wellFormed s.cfg = true →
      step s = exec i { s with input := rest }

/-- R105, U19: with no request pending a step holds the whole state. R11, U8: with one pending, a configuration that
violates R6 (a) to (f) is refused. -/
def Obligations.StepIdlesOrRefusesTheConfiguration : Prop :=
  (∀ s : State, s.input = [] → step s = .next s) ∧
  ∀ s : State, s.input ≠ [] → ¬ s.cfg.ParametersWF → step s = .refused .configNotWellFormed

/-! ## Host operations -/

/-- R87, R31, R106 (the spec's decision D28): RESET from any state gives `clk.last = 0` and `Passive`, emits nothing, and
leaves the configuration, the events already delivered and the pending requests; `State.reset` has those registers. -/
def Obligations.ResetDiscardsTheSession : Prop :=
  (∀ s : State, exec .reset s = .next { s with clk := { last := 0 }, m := .passive, result := none }) ∧
  State.reset.clk.last = 0 ∧ State.reset.m = .passive ∧ State.reset.events = []

/-- R86 (the spec's decision D3): FETCH, EARRD and MICWR refuse a tact below `clk.last`, in every mode. -/
def Obligations.DecreasingTactRefused : Prop :=
  ∀ (s : State) (pc : Nat) (tact : Nat) (level : Level), tact < s.clk.last →
    exec (.fetch pc tact) s = .refused .tactDecreasing ∧
    exec (.earrd tact) s = .refused .tactDecreasing ∧
    exec (.micwr tact level) s = .refused .tactDecreasing

/-- R88: FETCH in `Passive`. The two entry addresses begin a Load or a Save session at the operand tact and notify; every
other address, the error handler's among them, changes nothing but `clk.last`. A Load session entered with an empty tape is
at end of tape at once and ends at the next FETCH, whatever its address. Only a FETCH of an entry address changes the mode
away from `Passive`. The values the two sessions are created with are R31's table, which is the spec's decisions D9, D18 and
D28 (log entry 12). -/
def Obligations.FetchInPassive : Prop :=
  ∀ (s : State) (pc : Nat) (tact : Nat), s.cfg.WF → s.m = .passive → s.clk.last ≤ tact →
    (pc = s.cfg.loadEntryAddr → exec (.fetch pc tact) s = .next
      { s with clk := { last := tact }, result := none, events := s.events ++ [.enteredLoad]
               m := .load { blockIndex := 0, eof := decide (s.cfg.tape = []) }
                 { block := 0, startTact := tact, phase := .notStarted, level := high } }) ∧
    (pc = s.cfg.saveEntryAddr → exec (.fetch pc tact) s = .next
      { s with clk := { last := tact }, result := none, events := s.events ++ [.enteredSave]
               m := .save
                 { phase := .none, pilotCount := 0, bitOffset := 0, byteAcc := 0x00, prevPulse := .noPulse, buffer := []
                   blockCount := 0, lastEdgeTact := tact, micLevel := high } { fileCreated := false } }) ∧
    (pc ≠ s.cfg.loadEntryAddr → pc ≠ s.cfg.saveEntryAddr →
      exec (.fetch pc tact) s = .next { s with clk := { last := tact }, result := none }) ∧
    (pc = s.cfg.loadEntryAddr → s.cfg.tape = [] → ∀ (t : State) (pc' tact' : Nat), tact ≤ tact' →
      exec (.fetch pc tact) s = .next t → exec (.fetch pc' tact') t = .next
        { s with clk := { last := tact' }, m := .passive, result := none
                 events := s.events ++ [.enteredLoad, .leftLoad] }) ∧
    (∀ (i : Instr) (t : State), exec i s = .next t → t.mode ≠ .passive →
      ∃ pc' tact', i = .fetch pc' tact' ∧ (pc' = s.cfg.loadEntryAddr ∨ pc' = s.cfg.saveEntryAddr))

/-- R89 (the spec's decisions D24, D25): FETCH in `Load` ends the session at the error handler or at end of tape, with
`leftLoad`; otherwise, at the entry addresses too, it changes nothing but `clk.last`. -/
def Obligations.FetchInLoad : Prop :=
  ∀ (s : State) (seq : SeqState) (eng : EngState) (pc : Nat) (tact : Nat),
    s.m = .load seq eng → s.clk.last ≤ tact →
    (pc = s.cfg.errorHandlerAddr ∨ seq.eof = true → exec (.fetch pc tact) s = .next
      { s with clk := { last := tact }, m := .passive, result := none, events := s.events ++ [.leftLoad] }) ∧
    (pc ≠ s.cfg.errorHandlerAddr → seq.eof = false → exec (.fetch pc tact) s = .next
      { s with clk := { last := tact }, result := none })

/-- R90 (the spec's decisions D23, D25, D27): FETCH in `Save` ends the session at the error handler, on a capture error, or
on silence (strictly longer than the threshold since the last edge), with `finalize` exactly when a file was created and
then `leftSave`; otherwise it changes nothing but `clk.last`. At a tact below the last edge, which no run of host operations
reaches, R84 states no silence, and FETCH does one or the other (a free value, the model's choice, log entry 14). -/
def Obligations.FetchInSave : Prop :=
  ∀ (s : State) (cap : CapState) (sink : SinkState) (pc : Nat) (tact : Nat),
    s.m = .save cap sink → s.clk.last ≤ tact →
    (pc = s.cfg.errorHandlerAddr ∨ cap.phase = .error ∨ cap.lastEdgeTact + s.cfg.silenceThreshold < tact →
      exec (.fetch pc tact) s = .next
        { s with clk := { last := tact }, m := .passive, result := none
                 events := s.events ++ ((if sink.fileCreated = true then [.finalize] else []) ++ [.leftSave]) }) ∧
    (pc ≠ s.cfg.errorHandlerAddr → cap.phase ≠ .error → cap.lastEdgeTact ≤ tact →
      tact ≤ cap.lastEdgeTact + s.cfg.silenceThreshold →
      exec (.fetch pc tact) s = .next { s with clk := { last := tact }, result := none }) ∧
    (pc ≠ s.cfg.errorHandlerAddr → cap.phase ≠ .error → tact < cap.lastEdgeTact →
      ∃ freeCount,
        exec (.fetch pc tact) s = .next
          { s with clk := { last := tact }, m := .passive, result := none, freeCount := freeCount
                   events := s.events ++ ((if sink.fileCreated = true then [.finalize] else []) ++ [.leftSave]) } ∨
        exec (.fetch pc tact) s = .next { s with clk := { last := tact }, result := none, freeCount := freeCount })

/-- R91: EARRD returns the resting high level in `Passive` and (the spec's decision D26) in `Save`, changing nothing but
`clk.last`; in `Load` it is SEQ.GETEARBIT at that tact. -/
def Obligations.EarrdByMode : Prop :=
  ∀ (s : State) (tact : Nat), s.clk.last ≤ tact →
    (s.mode ≠ .load → exec (.earrd tact) s = .next
      { s with clk := { last := tact }, result := some (.level high) }) ∧
    (s.mode = .load → exec (.earrd tact) s = exec (.seqGetearbit tact) { s with clk := { last := tact } })

/-- R92: MICWR is ignored in `Passive` and (the spec's decision D26) in `Load`; in `Save` a level that repeats
`cap.micLevel` is no edge (decision D18), and any other level is recorded and is CAP.ONEDGE at that tact. -/
def Obligations.MicwrByMode : Prop :=
  ∀ (s : State) (tact : Nat) (level : Level), s.clk.last ≤ tact →
    (s.mode ≠ .save → exec (.micwr tact level) s = .next { s with clk := { last := tact }, result := none }) ∧
    (∀ cap sink, s.m = .save cap sink →
      (level = cap.micLevel → exec (.micwr tact level) s = .next
        { s with clk := { last := tact }, result := none }) ∧
      (level ≠ cap.micLevel → exec (.micwr tact level) s = exec (.capOnedge tact level)
        { s with clk := { last := tact }, m := .save { cap with micLevel := level } sink }))

/-- R11, R86: under WF(cfg), from a state that host operations keep (`Inv`, `HostInv`), every host operation whose tact is
not below `clk.last` answers a next state, which records the tact and is such a state again. -/
def Obligations.HostOperationsComplete : Prop :=
  ∀ (s : State) (i : Instr), s.cfg.WF → s.Inv → s.HostInv → isHostOp i = true →
    (∀ tact, timedTact i = some tact → s.clk.last ≤ tact) →
    ∃ t, exec i s = .next t ∧ t.Inv ∧ t.HostInv ∧ t.clk.last = (timedTact i).getD 0

/-! ## Block Playback Engine -/

/-- R60 (the spec's decision D28): ENG.NEW in a Load session gives a fresh instance bound to the block at the index, and
changes nothing else. R60's operand is an index into `cfg.tape`; that the operation runs at an index outside the tape too is
the model's choice (log entry 15), and that the binding is the register `eng.block` is the model's reading (log entry 7). -/
def Obligations.EngNewGivesAFreshInstance : Prop :=
  ∀ (s : State) (seq : SeqState) (eng : EngState) (blockIndex : Nat) (startTact : Nat),
    s.m = .load seq eng →
    exec (.engNew blockIndex startTact) s = .next
      { s with m := .load seq { block := blockIndex, startTact := startTact, phase := .notStarted, level := high }
               result := none }

/-- R65, R61 (the spec's decisions D4, D5, D8): ENG.SIGNALAT of any standard block at any tact from its start on returns a
level that depends only on the configuration, the block, the start tact and the tact: high in the pause and after it, and in
pulse `k`, which exists for every earlier tact, the level and the phase of that pulse. Nothing but the engine's phase and
level changes. -/
def Obligations.SignalatIsDefinedForEveryBlock : Prop :=
  ∀ (s : State) (seq : SeqState) (eng : EngState) (b : DataBlock) (tact : Nat),
    s.m = .load seq eng → s.cfg.tape[eng.block]? = some b → b.kind = .standardData → eng.startTact ≤ tact →
    ∃ (phase : EngPhase) (level : Level),
      exec (.engSignalat tact) s = .next
        { s with m := .load seq { eng with phase := phase, level := level }, result := some (.level level) } ∧
      (totTacts s.cfg b ≤ tact - eng.startTact → phase = .completed ∧ level = high) ∧
      (sigTacts s.cfg b ≤ tact - eng.startTact → tact - eng.startTact < totTacts s.cfg b →
        phase = .pause ∧ level = high) ∧
      (tact - eng.startTact < sigTacts s.cfg b → ∃ k p, (frame b)[k]? = some p ∧
        pulseStart s.cfg b k ≤ tact - eng.startTact ∧ tact - eng.startTact < pulseStart s.cfg b (k + 1) ∧
        phase = symbolPhase p ∧ level = pulseLevel b k)

/-- R63 (the spec's decisions D4, D8, log entry 12, fix the tacts): one engine instance queried at any non-decreasing sequence
of tacts from its start on, `ts`, `t1` and `t2`, never refuses, and from one query to the next its phase never goes back in the
order NotStarted < Pilot < Sync < Data < TermSync < Pause < Completed; the phase is Data exactly from the end of the two sync
pulses to the end of the last data pulse, and Pause exactly from the end of the terminator to the end of the pause. -/
def Obligations.PhaseNeverGoesBack : Prop :=
  ∀ (s : State) (seq : SeqState) (eng : EngState) (b : DataBlock) (ts : List Nat) (t1 t2 : Nat),
    s.m = .load seq eng → s.cfg.tape[eng.block]? = some b → b.kind = .standardData →
    (eng.startTact :: (ts ++ [t1, t2])).Pairwise (· ≤ ·) →
    ∃ s1 s2 eng1 eng2, execAll ((ts ++ [t1]).map .engSignalat) s = .next s1 ∧ s1.m = .load seq eng1 ∧
      exec (.engSignalat t2) s1 = .next s2 ∧ s2.m = .load seq eng2 ∧
      EngPhase.notStarted.rank < eng1.phase.rank ∧ eng1.phase.rank ≤ eng2.phase.rank ∧
      (eng1.phase = .data ↔
        pulseStart s.cfg b (b.pilotPulseCount + 2) ≤ t1 - eng.startTact ∧
        t1 - eng.startTact < pulseStart s.cfg b (b.pilotPulseCount + 2 + 16 * b.payload.length)) ∧
      (eng1.phase = .pause ↔
        sigTacts s.cfg b ≤ t1 - eng.startTact ∧ t1 - eng.startTact < totTacts s.cfg b)

/-- R64: once a query has given `Completed`, every later query gives `Completed` and returns high. -/
def Obligations.CompletedIsTerminal : Prop :=
  ∀ (s s1 : State) (seq : SeqState) (eng eng1 : EngState) (b : DataBlock) (t1 t2 : Nat),
    s.m = .load seq eng → s.cfg.tape[eng.block]? = some b → b.kind = .standardData → t1 ≤ t2 →
    exec (.engSignalat t1) s = .next s1 → s1.m = .load seq eng1 → eng1.phase = .completed →
    ∃ s2 eng2, exec (.engSignalat t2) s1 = .next s2 ∧ s2.m = .load seq eng2 ∧
      eng2.phase = .completed ∧ s2.result = some (.level high)

/-- R62, R19: the source's loop, after any non-decreasing sequence of queries, shows the phase and the level of the closed
form of R61; its hidden registers are the functions of the start tact and the queried tact that R62 gives. -/
def Obligations.LoopAgreesWithClosedForm : Prop :=
  ∀ (c : Config) (b : DataBlock) (t0 : Nat) (ts : List Nat) (t : Nat),
    (t0 :: (ts ++ [t])).Pairwise (· ≤ ·) →
    ∃ r phase, loopQuery c b t (loopAfter c b t0 ts) = (r, phase) ∧
      (phase, r.level) = signal c b (t - t0) ∧
      r.unitStart = t0 + pulseStart c b r.pulseIndex ∧
      (sigTacts c b ≤ t - t0 → r.pulseIndex = nPulses b) ∧
      (t - t0 < sigTacts c b → pulseStart c b r.pulseIndex ≤ t - t0 ∧
        t - t0 < pulseStart c b (r.pulseIndex + 1)) ∧
      (phase = .data → ∃ v, b.payload[r.byteIndex b]? = some v ∧
        (frame b)[r.pulseIndex]? = some (bitSymbol (v &&& r.bitMask b != 0)))

/-! ## Tape Sequencer -/

/-- R67: SEQ.INITPLAY begins at block 0, at end of tape exactly when the tape is empty, with a fresh engine, and changes
nothing else. -/
def Obligations.InitplayBeginsAtBlockZero : Prop :=
  ∀ (s : State) (startTact : Nat), s.mode = .load →
    exec (.seqInitplay startTact) s = .next
      { s with m := .load { blockIndex := 0, eof := decide (s.cfg.tape.length = 0) }
                 { block := 0, startTact := startTact, phase := .notStarted, level := high }
               result := none }

/-- R68, R66: SEQ.GETEARBIT answers a level whenever the tape's kinds are specified and the tact is not below the current
block's start; at end of tape it is high and nothing changes. Only the sequencer's and the engine's registers change. -/
def Obligations.GetearbitCompletes : Prop :=
  ∀ (s : State) (seq : SeqState) (eng : EngState) (tact : Nat),
    s.m = .load seq eng → s.cfg.TapeKindsSpecified → LoadInv s.cfg seq eng → eng.block = seq.blockIndex →
    eng.startTact ≤ tact →
    ∃ seq' eng' level,
      exec (.seqGetearbit tact) s = .next
        { s with m := .load seq' eng', result := some (.level level) } ∧
      eng'.block = seq'.blockIndex ∧ eng'.startTact ≤ tact ∧
      (seq.eof = true → seq' = seq ∧ eng' = eng) ∧ (seq'.eof = true → level = high)

/-- R66, R68 (the spec's decision D10): a block of another kind has no timing, and SEQ.GETEARBIT refuses when it meets it: as
the current block, or later in the same query, when every block before it is a Description or a standard block that has
completed by the tact. -/
def Obligations.UnspecifiedKindRefused : Prop :=
  ∀ (s : State) (seq : SeqState) (eng : EngState) (j : Nat) (b : DataBlock) (tact : Nat),
    s.m = .load seq eng → seq.eof = false → seq.blockIndex ≤ j → s.cfg.tape[j]? = some b →
    b.kind ≠ .standardData → b.kind ≠ .description →
    (seq.blockIndex < j → eng.block = seq.blockIndex) →
    (∀ i before, seq.blockIndex ≤ i → i < j → s.cfg.tape[i]? = some before →
      before.kind = .description ∨ before.kind = .standardData ∧
        slotStart s.cfg eng.startTact (i + 1) ≤ tact + slotStart s.cfg 0 seq.blockIndex) →
    exec (.seqGetearbit tact) s = .refused (.blockKindNotSpecified b.kind)

/-- R70: the closed form of a playback session. After SEQ.INITPLAY at `t0` and any non-decreasing queries from `t0` on, the
answer at the last tact `t` is that of the standard block whose slot holds `t`, or high at end of tape, and the registers
stand where R70 says, whichever tacts were queried before. -/
def Obligations.TapeSignalIsAFunctionOfTime : Prop :=
  ∀ (s : State) (t0 : Nat) (ts : List Nat) (t : Nat),
    s.cfg.WF → s.mode = .load → (t0 :: (ts ++ [t])).Pairwise (· ≤ ·) →
    ∃ s' seq eng,
      execAll (.seqInitplay t0 :: (ts ++ [t]).map .seqGetearbit) s = .next s' ∧ s'.m = .load seq eng ∧
      (seq.eof = true ↔ slotStart s.cfg t0 s.cfg.tape.length ≤ t) ∧
      (seq.eof = true → s'.result = some (.level high)) ∧
      (seq.eof = false → eng.startTact = slotStart s.cfg t0 seq.blockIndex ∧
        ∃ b, SlotHolds s.cfg t0 t seq.blockIndex b ∧
          s'.result = some (.level (signal s.cfg b (t - slotStart s.cfg t0 seq.blockIndex)).2)) ∧
      (∀ j b, SlotHolds s.cfg t0 t j b → seq.eof = false ∧ j = seq.blockIndex)

/-- R71: forward only. Over a SEQ.GETEARBIT or an EARRD of a Load session `seq.blockIndex` and `eng.startTact` never
decrease and `seq.eof` once true stays true. -/
def Obligations.PlaybackOnlyMovesForward : Prop :=
  ∀ (s t : State) (seq : SeqState) (eng : EngState) (tact : Nat) (i : Instr),
    s.m = .load seq eng → i = .seqGetearbit tact ∨ i = .earrd tact → exec i s = .next t →
    ∃ seq' eng', t.m = .load seq' eng' ∧ seq.blockIndex ≤ seq'.blockIndex ∧
      eng.startTact ≤ eng'.startTact ∧ (seq.eof = true → seq'.eof = true)

/-! ## Capture Decoder -/

/-- R72: CAP.INIT creates every register of the capture session anew and changes nothing else. -/
def Obligations.CapInitCreatesTheSession : Prop :=
  ∀ (s : State) (tact : Nat), s.mode = .save →
    exec (.capInit tact) s = .next
      { s with m := .save
                 { phase := .none, pilotCount := 0, bitOffset := 0, byteAcc := 0x00, prevPulse := .noPulse, buffer := []
                   blockCount := 0, lastEdgeTact := tact, micLevel := high } { fileCreated := false }
               result := none }

/-- R73, R53: under WF(cfg) CAP.CLASSIFY gives each class exactly to the durations in its window, both ends included, gives
`Other` exactly to the durations in none, and writes nothing. -/
def Obligations.ClassifyByWindow : Prop :=
  ∀ (s : State) (d : Nat), s.cfg.WF →
    ∃ k, exec (.capClassify d) s = .next { s with result := some (.pulseClass k) } ∧
      (k = .pilot ↔ s.cfg.pilotPL - s.cfg.tolerance ≤ d ∧ d ≤ s.cfg.pilotPL + s.cfg.tolerance) ∧
      (k = .sync1 ↔ s.cfg.sync1PL - s.cfg.tolerance ≤ d ∧ d ≤ s.cfg.sync1PL + s.cfg.tolerance) ∧
      (k = .sync2 ↔ s.cfg.sync2PL - s.cfg.tolerance ≤ d ∧ d ≤ s.cfg.sync2PL + s.cfg.tolerance) ∧
      (k = .bit0 ↔ s.cfg.bit0PL - s.cfg.tolerance ≤ d ∧ d ≤ s.cfg.bit0PL + s.cfg.tolerance) ∧
      (k = .bit1 ↔ s.cfg.bit1PL - s.cfg.tolerance ≤ d ∧ d ≤ s.cfg.bit1PL + s.cfg.tolerance) ∧
      (k = .term ↔ s.cfg.termSyncPL - s.cfg.tolerance ≤ d ∧ d ≤ s.cfg.termSyncPL + s.cfg.tolerance) ∧
      (k = .other ↔ ∀ x ∈ s.cfg.pulseLengths, d < x - s.cfg.tolerance ∨ x + s.cfg.tolerance < d)

/-- R75 (the spec's decision D12): in phase `None` a pilot pulse begins the pilot tone with count 1, and any other pulse
changes nothing but the last edge's tact. -/
def Obligations.EdgeInPhaseNone : Prop :=
  ∀ (s : State) (cap : CapState) (sink : SinkState) (tact : Nat) (level : Level),
    s.m = .save cap sink → cap.phase = .none → cap.lastEdgeTact ≤ tact →
    exec (.capOnedge tact level) s = .next
      { s with result := none
               m := .save (if classify s.cfg (tact - cap.lastEdgeTact) = .pilot
                 then { cap with lastEdgeTact := tact, phase := .pilot, pilotCount := 1 }
                 else { cap with lastEdgeTact := tact }) sink }

/-- R76 (the spec's decision D13): in phase `Pilot` a pilot pulse counts, a sync1 pulse is accepted once the minimum is
reached, and any other pulse is an error. -/
def Obligations.EdgeInPhasePilot : Prop :=
  ∀ (s : State) (cap : CapState) (sink : SinkState) (tact : Nat) (level : Level),
    s.m = .save cap sink → cap.phase = .pilot → cap.lastEdgeTact ≤ tact →
    ∃ cap', exec (.capOnedge tact level) s = .next { s with m := .save cap' sink, result := none } ∧
      (classify s.cfg (tact - cap.lastEdgeTact) = .pilot →
        cap' = { cap with lastEdgeTact := tact, pilotCount := cap.pilotCount + 1 }) ∧
      (classify s.cfg (tact - cap.lastEdgeTact) = .sync1 → s.cfg.minPilotCount ≤ cap.pilotCount →
        cap' = { cap with lastEdgeTact := tact, phase := .sync1 }) ∧
      (classify s.cfg (tact - cap.lastEdgeTact) = .sync1 → cap.pilotCount < s.cfg.minPilotCount →
        cap' = { cap with lastEdgeTact := tact, phase := .error }) ∧
      (classify s.cfg (tact - cap.lastEdgeTact) ≠ .pilot → classify s.cfg (tact - cap.lastEdgeTact) ≠ .sync1 →
        cap' = { cap with lastEdgeTact := tact, phase := .error })

/-- R77 (the spec's decisions D14, D15): in phase `Sync1` a sync2 pulse clears the bit registers and the buffer, and any
other pulse is an error. -/
def Obligations.EdgeInPhaseSync1 : Prop :=
  ∀ (s : State) (cap : CapState) (sink : SinkState) (tact : Nat) (level : Level),
    s.m = .save cap sink → cap.phase = .sync1 → cap.lastEdgeTact ≤ tact →
    exec (.capOnedge tact level) s = .next
      { s with result := none
               m := .save (if classify s.cfg (tact - cap.lastEdgeTact) = .sync2
                 then { cap with lastEdgeTact := tact, phase := .sync2, bitOffset := 0, byteAcc := 0x00
                                 prevPulse := .noPulse, buffer := [] }
                 else { cap with lastEdgeTact := tact, phase := .error }) sink }

/-- R79: a half-pulse in phase `Data` or `Sync2`. The first half of a bit is remembered; a second half of the same class
confirms the bit, most significant first, and the eighth confirmed bit completes the byte; a second half of the other class
is an error. -/
def Obligations.HalfPulsesFormBits : Prop :=
  ∀ (s : State) (cap : CapState) (sink : SinkState) (tact : Nat) (level : Level) (bit : Bool),
    s.m = .save cap sink → cap.phase = .data ∨ cap.phase = .sync2 → cap.lastEdgeTact ≤ tact →
    classify s.cfg (tact - cap.lastEdgeTact) = classOf bit → cap.bitOffset < 8 →
    ∃ cap', exec (.capOnedge tact level) s = .next { s with m := .save cap' sink, result := none } ∧
      (cap.prevPulse = .noPulse →
        cap' = { cap with lastEdgeTact := tact, phase := .data, prevPulse := halfOf bit }) ∧
      (cap.prevPulse = halfOf bit → cap.bitOffset < 7 →
        cap' = { cap with
          lastEdgeTact := tact, phase := .data, prevPulse := .noPulse, bitOffset := cap.bitOffset + 1
          byteAcc := if bit then cap.byteAcc ||| (0x80#8 >>> cap.bitOffset) else cap.byteAcc }) ∧
      (cap.prevPulse = halfOf bit → cap.bitOffset = 7 →
        cap' = { cap with
          lastEdgeTact := tact, phase := .data, prevPulse := .noPulse, bitOffset := 0, byteAcc := 0x00
          buffer := cap.buffer ++ [if bit then cap.byteAcc ||| (0x80#8 >>> 7) else cap.byteAcc] }) ∧
      (cap.prevPulse = halfOf (!bit) → cap' = { cap with lastEdgeTact := tact, phase := .error })

/-- R80, R83 (the spec's decisions D20, D23): a terminator pulse at a byte boundary completes the block. The phase returns
to `None`, the block counter grows, and the block is delivered with the buffer as its payload; the first completion of a
session creates the file before it and alone suggests a name, when the payload is header-shaped. That CAP.COMPLETE can be
issued on its own, and then delivers in any phase and at any bit offset without an edge, is the model's choice (log entry 18);
R83 has it called only at a terminator. -/
def Obligations.TerminatorDeliversTheBlock : Prop :=
  ∀ (s : State) (cap : CapState) (sink : SinkState), s.m = .save cap sink →
    ∃ sink' emitted,
      (∀ tact level, cap.phase = .data ∨ cap.phase = .sync2 → cap.lastEdgeTact ≤ tact →
        classify s.cfg (tact - cap.lastEdgeTact) = .term → cap.bitOffset = 0 → cap.prevPulse = .noPulse →
        exec (.capOnedge tact level) s = .next
          { s with m := .save { cap with lastEdgeTact := tact, phase := .none, blockCount := cap.blockCount + 1 } sink'
                   result := none, events := s.events ++ emitted }) ∧
      exec .capComplete s = .next
        { s with m := .save { cap with phase := .none, blockCount := cap.blockCount + 1 } sink'
                 result := none, events := s.events ++ emitted } ∧
      (cap.blockCount = 0 → sink'.fileCreated = true ∧
        emitted = [.createFile] ++
          (if headerShaped s.cfg cap.buffer then [.setName (nameOf s.cfg cap.buffer)] else []) ++
          [.appendBlock (capturedBlock s.cfg cap)]) ∧
      (cap.blockCount ≠ 0 → sink' = sink ∧ emitted = [.appendBlock (capturedBlock s.cfg cap)]) ∧
      capturedBlock s.cfg cap =
        { kind := .standardData, payload := cap.buffer, pilotPulseCount := cap.pilotCount
          pilotIsHeaderLength := decide (2 * cap.pilotCount > s.cfg.headerPilotCount + s.cfg.dataPilotCount)
          pauseAfterMs := s.cfg.pauseMs }

/-- R81, R96 (the spec's decision D16): in phase `Data` or `Sync2` every pulse but a half-pulse and a terminator at a byte
boundary makes the phase `Error` and changes nothing else but the last edge's tact; nothing is delivered. -/
def Obligations.ForeignPulseInDataIsAnError : Prop :=
  ∀ (s : State) (cap : CapState) (sink : SinkState) (tact : Nat) (level : Level),
    s.m = .save cap sink → cap.phase = .data ∨ cap.phase = .sync2 → cap.lastEdgeTact ≤ tact →
    classify s.cfg (tact - cap.lastEdgeTact) ≠ .bit0 → classify s.cfg (tact - cap.lastEdgeTact) ≠ .bit1 →
    ¬ (classify s.cfg (tact - cap.lastEdgeTact) = .term ∧ cap.bitOffset = 0 ∧ cap.prevPulse = .noPulse) →
    exec (.capOnedge tact level) s = .next
      { s with m := .save { cap with lastEdgeTact := tact, phase := .error } sink, result := none }

/-- R82 (the spec's decision D19): in phase `Error` CAP.ONEDGE changes nothing, whatever its operands. -/
def Obligations.ErrorPhaseAbsorbsEdges : Prop :=
  ∀ (s : State) (cap : CapState) (sink : SinkState) (tact : Nat) (level : Level),
    s.m = .save cap sink → cap.phase = .error → exec (.capOnedge tact level) s = .next { s with result := none }

/-- R54: a duration in no window is of class `Other`, and what a pulse of each class does in each phase: in phase `None` no
pulse is an error and every class but `Pilot` is ignored, in phase `Error` every pulse is, and in every other phase a pulse
leads to `Error` exactly when it is not legal. -/
def Obligations.IllegalPulseIsAnError : Prop :=
  ∀ (s : State) (cap : CapState) (sink : SinkState) (tact : Nat) (level : Level),
    s.m = .save cap sink → cap.lastEdgeTact ≤ tact →
    (classify s.cfg (tact - cap.lastEdgeTact) = .other ↔
      ∀ x ∈ s.cfg.pulseLengths, ¬ Matches s.cfg (tact - cap.lastEdgeTact) x) ∧
    ∃ t cap' sink', exec (.capOnedge tact level) s = .next t ∧ t.m = .save cap' sink' ∧
      (cap.phase = .none → cap'.phase ≠ .error ∧
        (classify s.cfg (tact - cap.lastEdgeTact) ≠ .pilot →
          cap' = { cap with lastEdgeTact := tact } ∧ sink' = sink ∧ t.events = s.events)) ∧
      (cap.phase = .error → cap' = cap ∧ sink' = sink ∧ t.events = s.events) ∧
      (cap.phase ≠ .none → cap.phase ≠ .error →
        (cap'.phase = .error ↔ legalPulse s.cfg cap (classify s.cfg (tact - cap.lastEdgeTact)) = false))

/-- R96: what raising a capture error means. Whenever an edge makes the phase `Error`, in whichever phase and by whichever
pulse, nothing else of the decoder changes but the last edge's tact, which every measured edge records; no cause is kept, and
nothing is delivered. -/
def Obligations.CaptureErrorChangesOnlyThePhase : Prop :=
  ∀ (s t : State) (cap cap' : CapState) (sink sink' : SinkState) (tact : Nat) (level : Level),
    s.m = .save cap sink → cap.phase ≠ .error → exec (.capOnedge tact level) s = .next t →
    t.m = .save cap' sink' → cap'.phase = .error →
    t = { s with m := .save { cap with lastEdgeTact := tact, phase := .error } sink, result := none }

/-- R84 (the spec's decision D27): CAP.SILENT tells whether the interval since the last edge is longer than the threshold,
strictly, and writes nothing. At a tact below the last edge R84 states no result: the answer is a free value (the model's
choice, log entry 14), and still no register of the block is written. -/
def Obligations.SilenceIsStrict : Prop :=
  ∀ (s : State) (cap : CapState) (sink : SinkState) (tact : Nat),
    s.m = .save cap sink →
    (cap.lastEdgeTact ≤ tact → exec (.capSilent tact) s = .next
      { s with result := some (.silent (decide (cap.lastEdgeTact + s.cfg.silenceThreshold < tact))) }) ∧
    (tact < cap.lastEdgeTact → ∃ silent freeCount, exec (.capSilent tact) s = .next
      { s with result := some (.silent silent), freeCount := freeCount })

/-- R35, R79: the data pulses of any payload, fed to a decoder that is ready for a byte, are reassembled into exactly the
payload's bytes, appended in order to the buffer. -/
def Obligations.DataPulsesAreReassembled : Prop :=
  ∀ (s : State) (cap : CapState) (sink : SinkState) (payload : List Byte),
    s.cfg.WF → s.m = .save cap sink → ReadyForByte cap →
    ∃ t cap', execAll (onEdges cap.lastEdgeTact ((dataPulses payload).map (pulseLength s.cfg))) s = .next t ∧
      t.m = .save cap' sink ∧ ReadyForByte cap' ∧ cap'.buffer = cap.buffer ++ payload ∧
      cap'.pilotCount = cap.pilotCount ∧ cap'.blockCount = cap.blockCount ∧ t.events = s.events

/-- R95, corrected (log entry 20): the round-trip law. The edges of a valid standard block's signal, each measured duration
within TOLERANCE of its nominal length (exactly on it among others), reproduce the payload: one block is delivered, with the
payload's bytes and a pilot count at most one off. The spec's premise `pilotPulseCount ≥ MIN_PILOT_COUNT + 1` is not enough
when `MIN_PILOT_COUNT = 0` and the block has one pilot pulse; the premise added here shuts out only that corner. -/
def Obligations.RoundTripLaw : Prop :=
  ∀ (s : State) (b : DataBlock) (saveTact : Nat) (edge : Nat → Nat),
    s.cfg.WF → s.mode = .save → ValidStandard s.cfg b →
    (1 ≤ s.cfg.minPilotCount ∨ 2 ≤ b.pilotPulseCount) → saveTact ≤ edge (firstEdge b) →
    (∀ k d, firstEdge b ≤ k → (frameDurations s.cfg b)[k]? = some d →
      edge k ≤ edge (k + 1) ∧ Matches s.cfg (edge (k + 1) - edge k) d) →
    ∃ t cap sink blk,
      execAll (.capInit saveTact :: signalEdges b edge) s = .next t ∧ t.m = .save cap sink ∧
      cap.phase = .none ∧ cap.blockCount = 1 ∧ cap.buffer = b.payload ∧
      t.events = s.events ++ [.createFile] ++ nameSuggestion s.cfg b.payload ++ [.appendBlock blk] ∧
      blk.payload = b.payload ∧ b.pilotPulseCount ≤ blk.pilotPulseCount + 1 ∧
      blk.pilotPulseCount ≤ b.pilotPulseCount + 1

/-- R95 as it is written, for edges that are not displaced: without the premise that the law above adds. Expected to FAIL (log
entry 20): with `MIN_PILOT_COUNT = 0` a block with one pilot pulse is valid standard, its only pilot pulse has no first edge,
and the decoder is still in phase `None` when the sync1 pulse comes. -/
def Obligations.RoundTripLawAsWritten : Prop :=
  ∀ (s : State) (b : DataBlock) (saveTact t0 : Nat),
    s.cfg.WF → s.mode = .save → ValidStandard s.cfg b → saveTact ≤ t0 →
    ∃ t cap sink blk,
      execAll (.capInit saveTact :: signalEdges b fun k => t0 + pulseStart s.cfg b k) s = .next t ∧
      t.m = .save cap sink ∧ cap.phase = .none ∧ cap.blockCount = 1 ∧ cap.buffer = b.payload ∧
      t.events = s.events ++ [.createFile] ++ nameSuggestion s.cfg b.payload ++ [.appendBlock blk] ∧
      blk.payload = b.payload ∧ b.pilotPulseCount ≤ blk.pilotPulseCount + 1 ∧
      blk.pilotPulseCount ≤ b.pilotPulseCount + 1

/-- R97, R100: no partial block is ever delivered. A MICWR that delivers a block found the decoder in the data phases, at a
byte boundary, at a terminator pulse, and the block's payload is the whole buffer. -/
def Obligations.NoPartialBlockDelivered : Prop :=
  ∀ (s t : State) (tact : Nat) (level : Level) (emitted : List OutputEvent) (blk : DataBlock),
    exec (.micwr tact level) s = .next t → t.events = s.events ++ emitted → .appendBlock blk ∈ emitted →
    ∃ cap sink, s.m = .save cap sink ∧ (cap.phase = .data ∨ cap.phase = .sync2) ∧
      cap.bitOffset = 0 ∧ cap.prevPulse = .noPulse ∧
      classify s.cfg (tact - cap.lastEdgeTact) = .term ∧ blk.payload = cap.buffer

/-- R52 (the spec's decisions D21, D22): a payload is header-shaped exactly when it has the header's length, begins with 0x00
and has 0x00 as the exclusive-or of all its bytes; byte `i` of its name field is byte `NAME_OFFSET + i`, for `i` below
`NAME_LEN`, all of which a header-shaped payload has; and the suggested name is the field without its trailing spaces: the
field is the name and then only spaces, and the name does not end in one. -/
def Obligations.NameIsTheTrimmedField : Prop :=
  ∀ (c : Config) (p : List Byte),
    (headerShaped c p = true ↔
      p.length = c.headerLen ∧ p[0]? = some 0x00 ∧ p.foldr (fun v x => v ^^^ x) 0x00 = 0x00) ∧
    (∀ i, (nameField c p)[i]? = if i < c.nameLen then p[c.nameOffset + i]? else none) ∧
    (c.HeaderShapeFits → headerShaped c p = true → (nameField c p).length = c.nameLen) ∧
    (∃ k, (nameField c p).map charOfByte = nameOf c p ++ List.replicate k ' ') ∧
    (nameOf c p).getLast? ≠ some ' '

/-! ## Output events and pulse symbols -/

/-- R10, R29 (that an event can be issued as an operation is the model's choice, log entry 8): each output event appends
itself to the streams and changes nothing else. -/
def Obligations.OutputEventsAreEmitted : Prop :=
  ∀ (s : State) (name : Name) (block : DataBlock),
    exec .enteredLoad s = .next { s with events := s.events ++ [.enteredLoad], result := none } ∧
    exec .leftLoad s = .next { s with events := s.events ++ [.leftLoad], result := none } ∧
    exec .enteredSave s = .next { s with events := s.events ++ [.enteredSave], result := none } ∧
    exec .leftSave s = .next { s with events := s.events ++ [.leftSave], result := none } ∧
    exec .createFile s = .next { s with events := s.events ++ [.createFile], result := none } ∧
    exec (.setName name) s = .next { s with events := s.events ++ [.setName name], result := none } ∧
    exec (.appendBlock block) s = .next { s with events := s.events ++ [.appendBlock block], result := none } ∧
    exec .finalize s = .next { s with events := s.events ++ [.finalize], result := none }

/-- R44, R47 (that a symbol can be issued as an operation is the model's choice, log entry 9): each pulse symbol answers its
length, its level and its decoder class, and changes no register. -/
def Obligations.PulseSymbolsAnswerTheirRow : Prop :=
  ∀ s : State,
    exec .pilot s = .next { s with result := some (.pulse
      { symbol := .pilot, length := s.cfg.pilotPL, level := .alternating, decoderClass := some .pilot }) } ∧
    exec .sync1 s = .next { s with result := some (.pulse
      { symbol := .sync1, length := s.cfg.sync1PL, level := .fixed low, decoderClass := some .sync1 }) } ∧
    exec .sync2 s = .next { s with result := some (.pulse
      { symbol := .sync2, length := s.cfg.sync2PL, level := .fixed high, decoderClass := some .sync2 }) } ∧
    exec .bit0 s = .next { s with result := some (.pulse
      { symbol := .bit0, length := s.cfg.bit0PL, level := .lowThenHigh, decoderClass := some .bit0 }) } ∧
    exec .bit1 s = .next { s with result := some (.pulse
      { symbol := .bit1, length := s.cfg.bit1PL, level := .lowThenHigh, decoderClass := some .bit1 }) } ∧
    exec .term s = .next { s with result := some (.pulse
      { symbol := .term, length := s.cfg.termSyncPL, level := .fixed low, decoderClass := some .term }) }

/-- R44, R49: PAUSE answers a high window without a decoder class; its length is `(pauseAfterMs * CLOCK_HZ) div 1000` of the
standard block bound in a Load session, and where none is bound it is open (a free value, log entry 10), so only the rest of
the answer is stated. -/
def Obligations.PauseAnswersTheWindow : Prop :=
  (∀ (s : State) (seq : SeqState) (eng : EngState) (b : DataBlock),
    s.m = .load seq eng → s.cfg.tape[eng.block]? = some b → b.kind = .standardData →
    exec .pause s = .next { s with result := some (.pulse
      { symbol := .pause, length := b.pauseAfterMs * s.cfg.clockHz / 1000, level := .fixed high
        decoderClass := none }) }) ∧
  ∀ s : State, ∃ length freeCount, exec .pause s = .next
    { s with freeCount := freeCount
             result := some (.pulse
               { symbol := .pause, length := length, level := .fixed high, decoderClass := none }) }

/-! ## The line code -/

/-- R46, R48: the pulses of a block of the tape by number. The frame has `P + 2 + 16*n + 1` pulses: `P` pilots, SYNC1,
SYNC2, two half-pulses for each bit, bit `q` being bit `7 - (q mod 8)` of the byte that TapeRead gives at `q div 8`, and
TERM. -/
def Obligations.FrameByPulseNumber : Prop :=
  ∀ (c : Config) (i : Nat) (b : DataBlock), c.tape[i]? = some b →
    (frame b).length = nPulses b ∧
    (∀ k, k < b.pilotPulseCount → (frame b)[k]? = some .pilot) ∧
    (frame b)[b.pilotPulseCount]? = some .sync1 ∧ (frame b)[b.pilotPulseCount + 1]? = some .sync2 ∧
    (∀ m, m < 16 * b.payload.length → ∃ v, tapeRead c i (m / 2 / 8) = some v ∧
      (frame b)[b.pilotPulseCount + 2 + m]? = some (bitSymbol (v.getLsbD (7 - m / 2 % 8)))) ∧
    (frame b)[b.pilotPulseCount + 2 + 16 * b.payload.length]? = some .term

/-- R47 (the spec's decision D5): the level flips at every pulse boundary; SYNC1 is low, SYNC2 high, every bit low and then
high, TERM low, and the last pilot pulse high. -/
def Obligations.PulseLevelsOfTheFrame : Prop :=
  ∀ b : DataBlock,
    (∀ k, pulseLevel b (k + 1) = !pulseLevel b k) ∧
    pulseLevel b b.pilotPulseCount = low ∧ pulseLevel b (b.pilotPulseCount + 1) = high ∧
    (∀ q, pulseLevel b (b.pilotPulseCount + 2 + 2 * q) = low ∧
      pulseLevel b (b.pilotPulseCount + 2 + 2 * q + 1) = high) ∧
    pulseLevel b (nPulses b - 1) = low ∧
    (1 ≤ b.pilotPulseCount → pulseLevel b (b.pilotPulseCount - 1) = high)

/-- R50: the length of a block's signal in closed form, from the counts of its 1 bits and 0 bits. -/
def Obligations.SignalLengthByBitCounts : Prop :=
  ∀ (c : Config) (b : DataBlock),
    sigTacts c b = b.pilotPulseCount * c.pilotPL + c.sync1PL + c.sync2PL +
      2 * (zeros b.payload * c.bit0PL + ones b.payload * c.bit1PL) + c.termSyncPL ∧
    sigTacts c b = pulseStart c b (nPulses b) ∧
    ones b.payload + zeros b.payload = 8 * b.payload.length

/-! ## Rules of the whole machine -/

/-- R13, R17, R18, R22, R75 to R83: every step keeps the invariant of the running session's registers. -/
def Obligations.EveryStepKeepsTheRegisterInvariant : Prop :=
  ∀ s t : State, s.Inv → step s = .next t → t.Inv

/-- The state right after reset meets every invariant the statements use. -/
def Obligations.ResetMeetsTheInvariants : Prop :=
  State.reset.Inv ∧ State.reset.HostInv ∧ State.reset.StreamsInOrder

/-- R15, R94: over all operations, only FETCH and RESET change the mode, a FETCH only between `Passive` and another mode, and
RESET only to `Passive`. -/
def Obligations.OnlyFetchAndResetChangeTheMode : Prop :=
  ∀ (i : Instr) (s t : State), exec i s = .next t → t.mode ≠ s.mode →
    (i = .reset ∧ t.mode = .passive) ∨
    (∃ pc tact, i = .fetch pc tact) ∧ (s.mode = .passive ∨ t.mode = .passive)

/-- R13, R16, R29, R42, R86: the frame that every operation shares. No operation writes the configuration or its tape; events
already emitted are never withdrawn; `clk.last` becomes the tact of a FETCH, EARRD or MICWR, 0 at RESET, and is otherwise
unchanged; EARRD and the playback operations emit nothing; and CAP.CLASSIFY, CAP.SILENT, the events and the pulse symbols
write no session register. The model's choices: the pending requests, which no operation reads (log entry 2); that a component
operation issued on its own leaves `clk` (log entry 6); and what an event (log entry 8) or a pulse symbol (log entry 9) issued
as an operation leaves. -/
def Obligations.FrameOfEveryOperation : Prop :=
  ∀ (i : Instr) (s t : State), exec i s = .next t →
    t.cfg = s.cfg ∧ t.input = s.input ∧ (∃ emitted, t.events = s.events ++ emitted) ∧
    (∀ tact, timedTact i = some tact → t.clk.last = tact) ∧
    (i = .reset → t.clk.last = 0) ∧
    (timedTact i = none → i ≠ .reset → t.clk = s.clk) ∧
    ((∃ tact, i = .earrd tact ∨ i = .engSignalat tact ∨ i = .seqGetearbit tact ∨ i = .seqInitplay tact ∨
        ∃ k, i = .engNew k tact) → t.events = s.events) ∧
    (0x20 ≤ i.number ∨ (∃ d, i = .capClassify d ∨ i = .capSilent d) → t.m = s.m)

/-- R93 (the spec's decisions D23, D25, D28): FETCH, EARRD and MICWR keep both streams in R93's order since machine start or
since the last RESET, `n` being the number of events emitted before it: `entered` and `left` events matched, and in a Save
session `createFile`, at most one `setName`, the blocks, and `finalize` exactly when a file was created, before `leftSave`. The
other host operation, RESET, is R93's exception: it may cut a session short, emits nothing, and the order begins anew after
the events so far. -/
def Obligations.HostOperationsKeepTheStreamsInOrder : Prop :=
  (∀ (i : Instr) (s t : State) (n : Nat), (timedTact i).isSome = true → s.Inv → n ≤ s.events.length →
    s.StreamsInOrderSince n → exec i s = .next t → n ≤ t.events.length ∧ t.StreamsInOrderSince n) ∧
  ∀ s t : State, exec .reset s = .next t → t.events = s.events ∧ t.StreamsInOrderSince s.events.length

/-- R100, R101, R114: re-entry restores nothing. Whatever session a state holds, a FETCH that ends it and a later FETCH that
begins a new one leave exactly the registers that the second FETCH would create from RESET. -/
def Obligations.ReentryRestoresNothing : Prop :=
  ∀ (s s1 s2 : State) (pc1 pc2 : Nat) (t1 t2 : Nat),
    s.mode ≠ .passive → exec (.fetch pc1 t1) s = .next s1 → s1.mode = .passive →
    exec (.fetch pc2 t2) s1 = .next s2 →
    ∃ r0 r, exec .reset s = .next r0 ∧ exec (.fetch pc2 t2) r0 = .next r ∧ s2.m = r.m ∧ s2.clk = r.clk

/-- R13, R17, R18, R20 (log entry 6): the component operations act on registers that exist only in their mode; outside it
they are refused by name. -/
def Obligations.ComponentOperationsNeedTheirSession : Prop :=
  ∀ (s : State) (n : Nat) (tact : Nat) (level : Level),
    (s.mode ≠ .load →
      exec (.engNew n tact) s = .refused .noLoadSession ∧ exec (.engSignalat tact) s = .refused .noLoadSession ∧
      exec (.seqInitplay tact) s = .refused .noLoadSession ∧
      exec (.seqGetearbit tact) s = .refused .noLoadSession) ∧
    (s.mode ≠ .save →
      exec (.capInit tact) s = .refused .noSaveSession ∧ exec (.capOnedge tact level) s = .refused .noSaveSession ∧
      exec .capComplete s = .refused .noSaveSession ∧ exec (.capSilent tact) s = .refused .noSaveSession)

/-- R61, R74 (the spec's decision D34): what asks the engine or the decoder refuses a tact below its reference tact.
ENG.SIGNALAT, and SEQ.GETEARBIT and EARRD on a current standard block, refuse a tact below `eng.startTact`; CAP.ONEDGE, and a
MICWR that is an edge, refuse a tact below `cap.lastEdgeTact` in every phase but `Error`. -/
def Obligations.TactBelowTheReferenceRefused : Prop :=
  (∀ (s : State) (seq : SeqState) (eng : EngState) (tact : Nat),
    s.m = .load seq eng → (∀ b, s.cfg.tape[eng.block]? = some b → b.kind = .standardData) → tact < eng.startTact →
    exec (.engSignalat tact) s = .refused .tactBeforeBlockStart ∧
    (∀ b, seq.eof = false → s.cfg.tape[seq.blockIndex]? = some b → b.kind = .standardData →
      exec (.seqGetearbit tact) s = .refused .tactBeforeBlockStart ∧
      (s.clk.last ≤ tact → exec (.earrd tact) s = .refused .tactBeforeBlockStart))) ∧
  ∀ (s : State) (cap : CapState) (sink : SinkState) (tact : Nat) (level : Level),
    s.m = .save cap sink → tact < cap.lastEdgeTact → cap.phase ≠ .error →
    exec (.capOnedge tact level) s = .refused .tactBeforeLastEdge ∧
    (s.clk.last ≤ tact → level ≠ cap.micLevel → exec (.micwr tact level) s = .refused .tactBeforeLastEdge)

/-- R60, R61, R68 (the block that an index outside the tape stands for is open, a free value: the model's choice, log entry
15): an engine bound outside the tape still answers from its start on, changing its phase and level only, and is high in the
pause and after it; and so does SEQ.GETEARBIT of a sequencer that stands outside the tape before its end, which no run
reaches, without moving on. -/
def Obligations.BlockOutsideTheTapeStillAnswers : Prop :=
  ∀ (s : State) (seq : SeqState) (eng : EngState) (tact : Nat),
    s.m = .load seq eng → s.cfg.tape.length ≤ eng.block → eng.startTact ≤ tact →
    (∃ phase level,
      exec (.engSignalat tact) s = .next
        { s with m := .load seq { eng with phase := phase, level := level }, result := some (.level level) } ∧
      phase ≠ .notStarted ∧ (phase = .pause ∨ phase = .completed → level = high)) ∧
    (seq.eof = false → s.cfg.tape.length ≤ seq.blockIndex → ∃ eof phase level,
      exec (.seqGetearbit tact) s = .next
        { s with m := .load { seq with eof := eof } { eng with phase := phase, level := level }
                 result := some (.level level) } ∧
      (eof = true → level = high))

/-- R55, R60 (the model's reading, log entry 16; the binding register is log entry 7): only a StandardData block has a frame.
ENG.SIGNALAT in a Load session whose engine is bound to a block of the tape of another kind is refused at every tact, and so is
a SEQ.GETEARBIT that would ask such an engine for the current standard block. -/
def Obligations.BlockWithoutAFrameRefused : Prop :=
  ∀ (s : State) (seq : SeqState) (eng : EngState) (b : DataBlock) (tact : Nat),
    s.m = .load seq eng → s.cfg.tape[eng.block]? = some b → b.kind ≠ .standardData →
    exec (.engSignalat tact) s = .refused (.blockHasNoFrame b.kind) ∧
    (∀ current, seq.eof = false → s.cfg.tape[seq.blockIndex]? = some current → current.kind = .standardData →
      exec (.seqGetearbit tact) s = .refused (.blockHasNoFrame b.kind))
end

