-- ==== Sys2Proof/Laws/LineCode.lean ====
section
/-! SUPPORT. The frame and the signal: lengths, which pulse holds a tact, and the three cases of the closed form. -/

namespace Sys2Proof

open Machine

/-! ## Lengths -/

@[simp] theorem byteBits_length (v : Byte) : (byteBits v).length = 8 := rfl

@[simp] theorem dataPulses_nil : dataPulses [] = [] := rfl

@[simp] theorem dataPulses_cons (v : Byte) (vs : List Byte) :
    dataPulses (v :: vs) = (byteBits v).flatMap bitPulses ++ dataPulses vs := rfl

@[simp] theorem bytePulses_length (v : Byte) : ((byteBits v).flatMap bitPulses).length = 16 := rfl

@[simp] theorem dataPulses_length (payload : List Byte) : (dataPulses payload).length = 16 * payload.length := by
  induction payload with
  | nil => rfl
  | cons v vs ih => simp only [dataPulses_cons, List.length_append, bytePulses_length, ih, List.length_cons]; omega

@[simp] theorem frame_length (b : DataBlock) : (frame b).length = nPulses b := by
  simp only [frame, nPulses, List.length_append, List.length_replicate, dataPulses_length, List.length_cons,
    List.length_nil]
  omega

@[simp] theorem frameDurations_length (c : Config) (b : DataBlock) : (frameDurations c b).length = nPulses b := by
  simp [frameDurations]

theorem nPulses_pos (b : DataBlock) : 0 < nPulses b := by unfold nPulses; omega

theorem frameDurations_getElem? (c : Config) (b : DataBlock) (k : Nat) :
    (frameDurations c b)[k]? = (frame b)[k]?.map (pulseLength c) := by
  simp [frameDurations]

/-! ## Offsets -/

@[simp] theorem pulseStart_zero (c : Config) (b : DataBlock) : pulseStart c b 0 = 0 := rfl

/-- R50: a pulse starts where the one before it ends. -/
theorem pulseStart_succ {c : Config} {b : DataBlock} {k : Nat} {p : PulseSymbol} (h : (frame b)[k]? = some p) :
    pulseStart c b (k + 1) = pulseStart c b k + pulseLength c p := by
  have hd : (frameDurations c b)[k]? = some (pulseLength c p) := by simp [frameDurations_getElem?, h]
  obtain ⟨hk, he⟩ := List.getElem?_eq_some_iff.mp hd
  simp [pulseStart, List.take_succ_eq_append_getElem hk, he]

theorem sum_take_le (l : List Nat) (i j : Nat) (h : i ≤ j) : (l.take i).sum ≤ (l.take j).sum := by
  have : l.take i = (l.take j).take i := by rw [List.take_take, Nat.min_eq_left h]
  rw [this]
  conv_rhs => rw [← List.take_append_drop i (l.take j), List.sum_append]
  exact Nat.le_add_right _ _

theorem pulseStart_mono (c : Config) (b : DataBlock) {i j : Nat} (h : i ≤ j) :
    pulseStart c b i ≤ pulseStart c b j := sum_take_le _ _ _ h

/-- R50: the signal ends where the last pulse does. -/
theorem pulseStart_nPulses (c : Config) (b : DataBlock) : pulseStart c b (nPulses b) = sigTacts c b := by
  rw [pulseStart, sigTacts, List.take_of_length_le (by simp)]

theorem sigTacts_le_totTacts (c : Config) (b : DataBlock) : sigTacts c b ≤ totTacts c b := Nat.le_add_right _ _

/-! ## The pulse at a tact -/

/-- What `pulseAt` finds, over any list of pulses. -/
theorem pulseAt_some {c : Config} {ps : List PulseSymbol} {k r k' : Nat} {p : PulseSymbol}
    (h : pulseAt c ps k r = some (k', p)) :
    ∃ j, k' = k + j ∧ ps[j]? = some p ∧ ((ps.map (pulseLength c)).take j).sum ≤ r ∧
      r < ((ps.map (pulseLength c)).take j).sum + pulseLength c p := by
  induction ps generalizing k r with
  | nil => cases h
  | cons q ps ih =>
    unfold pulseAt at h
    split at h
    · next hr =>
      cases h
      exact ⟨0, rfl, rfl, by simp, by simpa using hr⟩
    · next hr =>
      obtain ⟨j, rfl, hp, hlo, hhi⟩ := ih h
      refine ⟨j + 1, by omega, by simpa using hp, ?_, ?_⟩ <;>
        simp only [List.map_cons, List.take_succ_cons, List.sum_cons] <;> omega

/-- `pulseAt` fails exactly past the last pulse. -/
theorem pulseAt_none {c : Config} {ps : List PulseSymbol} {k r : Nat} :
    pulseAt c ps k r = none ↔ (ps.map (pulseLength c)).sum ≤ r := by
  induction ps generalizing k r with
  | nil => simp [pulseAt]
  | cons q ps ih =>
    unfold pulseAt
    split
    · next hr => simp; omega
    · next hr => rw [ih]; simp; omega

/-- R61: before the end of the signal exactly one pulse holds the tact, and `pulseAt` finds it. -/
theorem pulseAt_frame {c : Config} {b : DataBlock} {r : Nat} (h : r < sigTacts c b) :
    ∃ k p, pulseAt c (frame b) 0 r = some (k, p) ∧ (frame b)[k]? = some p ∧
      pulseStart c b k ≤ r ∧ r < pulseStart c b (k + 1) := by
  cases hp : pulseAt c (frame b) 0 r with
  | none =>
    rw [pulseAt_none] at hp
    unfold sigTacts frameDurations at h
    omega
  | some kp =>
    obtain ⟨k, p⟩ := kp
    obtain ⟨j, hj, hget, hlo, hhi⟩ := pulseAt_some hp
    obtain rfl : k = j := by omega
    exact ⟨k, p, rfl, hget, hlo, by rw [pulseStart_succ hget]; exact hhi⟩

/-- The pulse that holds a tact is unique (R61). -/
theorem pulse_unique {c : Config} {b : DataBlock} {r j k : Nat}
    (hj : pulseStart c b j ≤ r ∧ r < pulseStart c b (j + 1))
    (hk : pulseStart c b k ≤ r ∧ r < pulseStart c b (k + 1)) : j = k := by
  rcases Nat.lt_trichotomy j k with h | h | h
  · have := pulseStart_mono c b (show j + 1 ≤ k by omega); omega
  · exact h
  · have := pulseStart_mono c b (show k + 1 ≤ j by omega); omega

/-! ## The signal -/

theorem signal_completed {c : Config} {b : DataBlock} {r : Nat} (h : totTacts c b ≤ r) :
    signal c b r = (.completed, high) := by
  simp [signal, h]

theorem signal_pause {c : Config} {b : DataBlock} {r : Nat} (h1 : sigTacts c b ≤ r) (h2 : r < totTacts c b) :
    signal c b r = (.pause, high) := by
  simp [signal, h1, Nat.not_le.mpr h2]

theorem signal_pulse {c : Config} {b : DataBlock} {r k : Nat} {p : PulseSymbol} (hp : (frame b)[k]? = some p)
    (h1 : pulseStart c b k ≤ r) (h2 : r < pulseStart c b (k + 1)) :
    signal c b r = (symbolPhase p, pulseLevel b k) := by
  have hk : k < nPulses b := by
    have := (List.getElem?_eq_some_iff.mp hp).1
    simpa using this
  have hr : r < sigTacts c b := by
    have := pulseStart_mono c b (show k + 1 ≤ nPulses b by omega)
    rw [pulseStart_nPulses] at this
    omega
  obtain ⟨k', p', hat, hp', hlo, hhi⟩ := pulseAt_frame hr
  obtain rfl := pulse_unique ⟨hlo, hhi⟩ ⟨h1, h2⟩
  obtain rfl : p' = p := by simpa [hp'] using hp
  have ht := sigTacts_le_totTacts c b
  simp [signal, hat, Nat.not_le.mpr hr, show ¬ totTacts c b ≤ r by omega]

/-- A tact is past the block, in its pause, or in one of its pulses. -/
theorem signal_cases (c : Config) (b : DataBlock) (r : Nat) :
    (totTacts c b ≤ r ∧ signal c b r = (.completed, high)) ∨
    (sigTacts c b ≤ r ∧ r < totTacts c b ∧ signal c b r = (.pause, high)) ∨
    ∃ k p, r < sigTacts c b ∧ (frame b)[k]? = some p ∧ pulseStart c b k ≤ r ∧ r < pulseStart c b (k + 1) ∧
      signal c b r = (symbolPhase p, pulseLevel b k) := by
  by_cases h1 : totTacts c b ≤ r
  · exact .inl ⟨h1, signal_completed h1⟩
  · by_cases h2 : sigTacts c b ≤ r
    · exact .inr (.inl ⟨h2, by omega, signal_pause h2 (by omega)⟩)
    · obtain ⟨k, p, -, hp, hlo, hhi⟩ := pulseAt_frame (show r < sigTacts c b by omega)
      exact .inr (.inr ⟨k, p, by omega, hp, hlo, hhi, signal_pulse hp hlo hhi⟩)

/-! ## The frame by pulse number -/

theorem frame_pilot {b : DataBlock} {k : Nat} (h : k < b.pilotPulseCount) : (frame b)[k]? = some .pilot := by
  simp [frame, List.getElem?_append, h]

theorem frame_sync1 (b : DataBlock) : (frame b)[b.pilotPulseCount]? = some .sync1 := by
  simp [frame]

theorem frame_sync2 (b : DataBlock) : (frame b)[b.pilotPulseCount + 1]? = some .sync2 := by
  simp [frame]

theorem frame_data {b : DataBlock} {m : Nat} (h : m < 16 * b.payload.length) :
    (frame b)[b.pilotPulseCount + 2 + m]? = (dataPulses b.payload)[m]? := by
  rw [frame, List.getElem?_append_right (by simp; omega), List.getElem?_append_right (by simp; omega),
    List.getElem?_append_left (by simp; omega)]
  congr 1
  simp
  omega

theorem frame_term (b : DataBlock) :
    (frame b)[b.pilotPulseCount + 2 + 16 * b.payload.length]? = some .term := by
  rw [frame, List.getElem?_append_right (by simp; omega), List.getElem?_append_right (by simp; omega),
    List.getElem?_append_right (by simp; omega)]
  simp [show b.pilotPulseCount + 2 + 16 * b.payload.length - b.pilotPulseCount - 2 - 16 * b.payload.length = 0 by omega]

theorem bytePulses_getElem? (v : Byte) {m : Nat} (h : m < 16) :
    ((byteBits v).flatMap bitPulses)[m]? = some (bitSymbol (v.getLsbD (7 - m / 2 % 8))) := by
  interval_cases m <;> rfl

/-- R48: half-pulse `m` of a payload belongs to bit `7 - (m div 2 mod 8)` of byte `m div 16`. -/
theorem dataPulses_getElem? {payload : List Byte} {m : Nat} (h : m < 16 * payload.length) :
    ∃ v, payload[m / 2 / 8]? = some v ∧
      (dataPulses payload)[m]? = some (bitSymbol (v.getLsbD (7 - m / 2 % 8))) := by
  induction payload generalizing m with
  | nil => simp at h
  | cons v vs ih =>
    by_cases hm : m < 16
    · refine ⟨v, ?_, ?_⟩
      · rw [show m / 2 / 8 = 0 by omega]; rfl
      · rw [dataPulses_cons, List.getElem?_append_left (by rw [bytePulses_length]; exact hm), bytePulses_getElem? v hm]
    · obtain ⟨w, hw, hd⟩ := ih (m := m - 16) (by simp at h; omega)
      refine ⟨w, ?_, ?_⟩
      · rw [show m / 2 / 8 = (m - 16) / 2 / 8 + 1 by omega]; simpa using hw
      · rw [dataPulses_cons, List.getElem?_append_right (by rw [bytePulses_length]; omega), bytePulses_length, hd]
        congr 4
        omega

/-- The phase of a pulse by its number (R46). -/
theorem frame_phase {b : DataBlock} {k : Nat} {p : PulseSymbol} (h : (frame b)[k]? = some p) :
    symbolPhase p =
      if k < b.pilotPulseCount then .pilot
      else if k < b.pilotPulseCount + 2 then .sync
      else if k < b.pilotPulseCount + 2 + 16 * b.payload.length then .data
      else .termSync := by
  have hk : k < nPulses b := by simpa using (List.getElem?_eq_some_iff.mp h).1
  unfold nPulses at hk
  split
  · next h1 => rw [frame_pilot h1] at h; cases h; rfl
  · split
    · next h1 h2 =>
      rcases (show k = b.pilotPulseCount ∨ k = b.pilotPulseCount + 1 by omega) with rfl | rfl
      · rw [frame_sync1] at h; cases h; rfl
      · rw [frame_sync2] at h; cases h; rfl
    · split
      · next h1 h2 h3 =>
        obtain ⟨m, rfl⟩ : ∃ m, k = b.pilotPulseCount + 2 + m := ⟨k - (b.pilotPulseCount + 2), by omega⟩
        rw [frame_data (by omega)] at h
        obtain ⟨v, -, hd⟩ := dataPulses_getElem? (payload := b.payload) (m := m) (by omega)
        rw [hd] at h
        cases h
        cases v.getLsbD (7 - m / 2 % 8) <;> rfl
      · next h1 h2 h3 =>
        obtain rfl : k = b.pilotPulseCount + 2 + 16 * b.payload.length := by omega
        rw [frame_term] at h; cases h; rfl

/-- R47: the level flips at every pulse boundary. -/
theorem pulseLevel_succ (b : DataBlock) (k : Nat) : pulseLevel b (k + 1) = !pulseLevel b k := by
  unfold pulseLevel
  rcases Nat.mod_two_eq_zero_or_one (b.pilotPulseCount + k) with h | h <;>
    simp [← Nat.add_assoc, Nat.add_mod, h]

/-- R47: after the last pulse the flip gives high. -/
theorem pulseLevel_nPulses (b : DataBlock) : pulseLevel b (nPulses b) = high := by
  have : (b.pilotPulseCount + nPulses b) % 2 = 1 := by unfold nPulses; omega
  simp [pulseLevel, this]

end Sys2Proof
end

