-- ==== Sys2Proof/Laws/State.lean ====
section
/-! SUPPORT. One lemma per field per update of State: finishing an operation, emitting, entering and ending a session. -/

namespace Sys2Proof.Machine

variable (s : State) (m : Session) (es : List OutputEvent) (r : Option OpResult) (tact : Nat)

@[simp] theorem finish_cfg : (s.finish m es r).cfg = s.cfg := rfl
@[simp] theorem finish_clk : (s.finish m es r).clk = s.clk := rfl
@[simp] theorem finish_m : (s.finish m es r).m = m := rfl
@[simp] theorem finish_result : (s.finish m es r).result = r := rfl
@[simp] theorem finish_events : (s.finish m es r).events = s.events ++ es := rfl
@[simp] theorem finish_input : (s.finish m es r).input = s.input := rfl
@[simp] theorem finish_freeCount : (s.finish m es r).freeCount = s.freeCount := rfl
@[simp] theorem finish_mode : (s.finish m es r).mode = m.mode := rfl

/-- An operation that emits nothing leaves the streams as they are. -/
theorem finish_quiet : s.finish m [] r = { s with m := m, result := r } := by
  simp [State.finish]

@[simp] theorem emit_m (e : OutputEvent) : (s.emit e).m = s.m := rfl
@[simp] theorem emit_cfg (e : OutputEvent) : (s.emit e).cfg = s.cfg := rfl
@[simp] theorem emit_clk (e : OutputEvent) : (s.emit e).clk = s.clk := rfl
@[simp] theorem emit_input (e : OutputEvent) : (s.emit e).input = s.input := rfl
@[simp] theorem emit_result (e : OutputEvent) : (s.emit e).result = none := rfl
@[simp] theorem emit_freeCount (e : OutputEvent) : (s.emit e).freeCount = s.freeCount := rfl
@[simp] theorem emit_events (e : OutputEvent) : (s.emit e).events = s.events ++ [e] := rfl

@[simp] theorem enterLoad_cfg : (s.enterLoad tact).cfg = s.cfg := rfl
@[simp] theorem enterLoad_clk : (s.enterLoad tact).clk = s.clk := rfl
@[simp] theorem enterLoad_input : (s.enterLoad tact).input = s.input := rfl
@[simp] theorem enterLoad_freeCount : (s.enterLoad tact).freeCount = s.freeCount := rfl
@[simp] theorem enterLoad_result : (s.enterLoad tact).result = none := rfl
@[simp] theorem enterLoad_events : (s.enterLoad tact).events = s.events ++ [.enteredLoad] := rfl
@[simp] theorem enterLoad_m :
    (s.enterLoad tact).m = .load (seqStart s.cfg tact).1 (seqStart s.cfg tact).2 := rfl

@[simp] theorem enterSave_cfg : (s.enterSave tact).cfg = s.cfg := rfl
@[simp] theorem enterSave_clk : (s.enterSave tact).clk = s.clk := rfl
@[simp] theorem enterSave_input : (s.enterSave tact).input = s.input := rfl
@[simp] theorem enterSave_freeCount : (s.enterSave tact).freeCount = s.freeCount := rfl
@[simp] theorem enterSave_result : (s.enterSave tact).result = none := rfl
@[simp] theorem enterSave_events : (s.enterSave tact).events = s.events ++ [.enteredSave] := rfl
@[simp] theorem enterSave_m : (s.enterSave tact).m = .save (capFresh tact) sinkFresh := rfl

@[simp] theorem endSession_cfg : s.endSession.cfg = s.cfg := rfl
@[simp] theorem endSession_clk : s.endSession.clk = s.clk := rfl
@[simp] theorem endSession_input : s.endSession.input = s.input := rfl
@[simp] theorem endSession_freeCount : s.endSession.freeCount = s.freeCount := rfl
@[simp] theorem endSession_result : s.endSession.result = none := rfl
@[simp] theorem endSession_events : s.endSession.events = s.events ++ endEvents s.m := rfl
@[simp] theorem endSession_m : s.endSession.m = .passive := rfl

/-! Asking for silence draws a free value at most: every field but `freeCount` is unchanged. -/

variable (cap : CapState)

@[simp] theorem askSilence_cfg : (s.askSilence cap tact).2.cfg = s.cfg := rfl
@[simp] theorem askSilence_clk : (s.askSilence cap tact).2.clk = s.clk := rfl
@[simp] theorem askSilence_m : (s.askSilence cap tact).2.m = s.m := rfl
@[simp] theorem askSilence_result : (s.askSilence cap tact).2.result = s.result := rfl
@[simp] theorem askSilence_events : (s.askSilence cap tact).2.events = s.events := rfl
@[simp] theorem askSilence_input : (s.askSilence cap tact).2.input = s.input := rfl

/-- R84: from the last edge on the answer is the comparison, and nothing is drawn. -/
theorem askSilence_of_le {s : State} {cap : CapState} {tact : Nat} (h : cap.lastEdgeTact ≤ tact) :
    s.askSilence cap tact = (silentAt s.cfg cap.lastEdgeTact tact, s) := by
  simp [State.askSilence, Nat.not_lt.mpr h]

/-- Below the last edge the answer is a free value, and the counter advances. -/
theorem askSilence_of_lt {s : State} {cap : CapState} {tact : Nat} (h : tact < cap.lastEdgeTact) :
    s.askSilence cap tact = (Config.freeSilent s.freeCount, { s with freeCount := s.freeCount + 1 }) := by
  simp [State.askSilence, h]

/-- All that asking for silence can answer: some answer and the state with some counter, and from the last edge on the
comparison and the state itself. -/
theorem askSilence_cases (s : State) (cap : CapState) (tact : Nat) :
    ∃ silent n, s.askSilence cap tact = (silent, { s with freeCount := n }) ∧
      (cap.lastEdgeTact ≤ tact → silent = silentAt s.cfg cap.lastEdgeTact tact ∧ n = s.freeCount) := by
  rcases Nat.lt_or_ge tact cap.lastEdgeTact with h | h
  · exact ⟨_, _, askSilence_of_lt h, fun h' => by omega⟩
  · exact ⟨_, _, askSilence_of_le h, fun _ => ⟨rfl, rfl⟩⟩

@[simp] theorem mode_passive : Session.passive.mode = .passive := rfl
@[simp] theorem mode_load (seq : SeqState) (eng : EngState) : (Session.load seq eng).mode = .load := rfl
@[simp] theorem mode_save (cap : CapState) (sink : SinkState) : (Session.save cap sink).mode = .save := rfl

/-- A state in mode Load has a Load session. -/
theorem exists_load_of_mode {s : State} (h : s.mode = .load) : ∃ seq eng, s.m = .load seq eng := by
  unfold State.mode at h
  cases hm : s.m <;> simp_all

/-- A state in mode Save has a Save session. -/
theorem exists_save_of_mode {s : State} (h : s.mode = .save) : ∃ cap sink, s.m = .save cap sink := by
  unfold State.mode at h
  cases hm : s.m <;> simp_all

/-- A state in mode Passive has no session. -/
theorem passive_of_mode {s : State} (h : s.mode = .passive) : s.m = .passive := by
  unfold State.mode at h
  cases hm : s.m <;> simp_all

end Sys2Proof.Machine
end

