-- ==== Sys2Proof/Laws/Operands.lean ====
section
/-! SUPPORT. What each operand form can do: the tact check, the session access, the parts that may refuse. -/

namespace Sys2Proof.Machine

/-- R86: a tact that is not below `clk.last` is recorded and the operation goes on. -/
theorem timed_of_le {tact : Nat} {s : State} (go : State → Outcome) (h : s.clk.last ≤ tact) :
    timed tact s go = go { s with clk := { last := tact } } := by
  simp [timed, Nat.not_lt.mpr h]

/-- R86: a lower tact is refused. -/
theorem timed_of_lt {tact : Nat} {s : State} (go : State → Outcome) (h : tact < s.clk.last) :
    timed tact s go = .refused .tactDecreasing := by
  simp [timed, h]

/-- All a timed operation can answer next. -/
theorem timed_next {tact : Nat} {s t : State} {go : State → Outcome} (h : timed tact s go = .next t) :
    s.clk.last ≤ tact ∧ go { s with clk := { last := tact } } = .next t := by
  unfold timed at h
  split at h
  · cases h
  · exact ⟨by omega, h⟩

/-- All an operation on the Load session can answer next. -/
theorem withLoad_next {s t : State} {go : SeqState → EngState → Outcome} (h : withLoad s go = .next t) :
    ∃ seq eng, s.m = .load seq eng ∧ go seq eng = .next t := by
  unfold withLoad at h
  split at h
  · exact ⟨_, _, ‹_›, h⟩
  · cases h
  · cases h

/-- All an operation on the Save session can answer next. -/
theorem withSave_next {s t : State} {go : CapState → SinkState → Outcome} (h : withSave s go = .next t) :
    ∃ cap sink, s.m = .save cap sink ∧ go cap sink = .next t := by
  unfold withSave at h
  split at h
  · exact ⟨_, _, ‹_›, h⟩
  · cases h
  · cases h

theorem withLoad_of {s : State} {seq : SeqState} {eng : EngState} (go : SeqState → EngState → Outcome)
    (h : s.m = .load seq eng) : withLoad s go = go seq eng := by
  simp [withLoad, h]

theorem withSave_of {s : State} {cap : CapState} {sink : SinkState} (go : CapState → SinkState → Outcome)
    (h : s.m = .save cap sink) : withSave s go = go cap sink := by
  simp [withSave, h]

theorem withLoad_refused {s : State} (go : SeqState → EngState → Outcome) (h : s.mode ≠ .load) :
    withLoad s go = .refused .noLoadSession := by
  unfold withLoad
  unfold State.mode at h
  cases hm : s.m <;> simp_all

theorem withSave_refused {s : State} (go : CapState → SinkState → Outcome) (h : s.mode ≠ .save) :
    withSave s go = .refused .noSaveSession := by
  unfold withSave
  unfold State.mode at h
  cases hm : s.m <;> simp_all

@[simp] theorem orRefuse_ok {α : Type} (a : α) (go : α → Outcome) : orRefuse (.ok a) go = go a := rfl
@[simp] theorem orRefuse_error {α : Type} (r : Refusal) (go : α → Outcome) :
    orRefuse (.error r) go = .refused r := rfl

/-- All an operation with a part that may refuse can answer next. -/
theorem orRefuse_next {α : Type} {x : Except Refusal α} {go : α → Outcome} {t : State}
    (h : orRefuse x go = .next t) : ∃ a, x = .ok a ∧ go a = .next t := by
  cases x with
  | ok a => exact ⟨a, rfl, h⟩
  | error r => cases h

/-- A standard block of the tape is the block its index stands for. -/
theorem signalBlock_of {c : Config} {i : Nat} {b : DataBlock} (h : c.tape[i]? = some b) (hk : b.kind = .standardData) :
    signalBlock c i = .ok b := by
  simp [signalBlock, h, hk]

/-- A block of the tape of another kind has no frame. -/
theorem signalBlock_frameless {c : Config} {i : Nat} {b : DataBlock} (h : c.tape[i]? = some b)
    (hk : b.kind ≠ .standardData) : signalBlock c i = .error (.blockHasNoFrame b.kind) := by
  simp [signalBlock, h, hk]

/-- Outside the tape the block is free. -/
theorem signalBlock_outside {c : Config} {i : Nat} (h : c.tape.length ≤ i) :
    signalBlock c i = .ok (Config.freeBlock c i) := by
  simp [signalBlock, List.getElem?_eq_none h]

/-- An index stands for some block unless it names one of another kind. -/
theorem signalBlock_total {c : Config} {i : Nat} (h : ∀ b, c.tape[i]? = some b → b.kind = .standardData) :
    ∃ b, signalBlock c i = .ok b := by
  cases hb : c.tape[i]? with
  | none => exact ⟨_, signalBlock_outside (List.getElem?_eq_none_iff.mp hb)⟩
  | some b => exact ⟨b, signalBlock_of hb (h b hb)⟩

end Sys2Proof.Machine
end

