-- ==== Sys2Proof/Laws/Capture.lean ====
section
/-! SUPPORT. What the capture decoder can do: classification under WF(cfg), one pulse, a run of pulses apart from their tacts,
and the runs that a frame consists of. -/

namespace Sys2Proof.Machine

/-! ## Classification (R53) -/

/-- The windows of two different pulse lengths have no duration in common. -/
theorem windows_apart {c : Config} (h : c.ParametersWF) :
    c.pulseLengths.Pairwise fun x y => ∀ d, Matches c d x → ¬ Matches c d y := by
  obtain ⟨hlen, hdis, -⟩ := h
  refine hdis.imp_of_mem ?_
  intro x y hx hy hxy d hdx hdy
  have h1 := hlen x hx
  have h2 := hlen y hy
  unfold Config.WindowsDisjoint at hxy
  unfold Matches at hdx hdy
  omega

/-- R53: under WF(cfg) a duration that matches a symbol's length is of the symbol's class. -/
theorem classify_symbol {c : Config} (h : c.ParametersWF) {p : PulseSymbol} {d : Nat} (hp : p ≠ .pause)
    (hd : Matches c d (pulseLength c p)) : some (classify c d) = symbolClass p := by
  have hw := windows_apart h
  simp only [Config.pulseLengths, List.pairwise_cons, List.mem_cons, List.not_mem_nil, or_false, forall_eq_or_imp,
    forall_eq] at hw
  obtain ⟨⟨h12, h13, h14, h15, h16⟩, ⟨h23, h24, h25, h26⟩, ⟨h34, h35, h36⟩, ⟨h45, h46⟩, h56, -⟩ := hw
  unfold classify
  cases p with
  | pilot => rw [if_pos (show Matches c d c.pilotPL from hd)]; rfl
  | sync1 => rw [if_neg fun m => h12 d m hd, if_pos (show Matches c d c.sync1PL from hd)]; rfl
  | sync2 =>
    rw [if_neg fun m => h13 d m hd, if_neg fun m => h23 d m hd, if_pos (show Matches c d c.sync2PL from hd)]; rfl
  | bit0 =>
    rw [if_neg fun m => h14 d m hd, if_neg fun m => h24 d m hd, if_neg fun m => h34 d m hd,
      if_pos (show Matches c d c.bit0PL from hd)]; rfl
  | bit1 =>
    rw [if_neg fun m => h15 d m hd, if_neg fun m => h25 d m hd, if_neg fun m => h35 d m hd,
      if_neg fun m => h45 d m hd, if_pos (show Matches c d c.bit1PL from hd)]; rfl
  | term =>
    rw [if_neg fun m => h16 d m hd, if_neg fun m => h26 d m hd, if_neg fun m => h36 d m hd,
      if_neg fun m => h46 d m hd, if_neg fun m => h56 d m hd, if_pos (show Matches c d c.termSyncPL from hd)]; rfl
  | pause => exact absurd rfl hp

/-- Every class but `Other` is given only to durations in its window. -/
theorem matches_of_classify {c : Config} {p : PulseSymbol} {d : Nat} (h : some (classify c d) = symbolClass p) :
    Matches c d (pulseLength c p) := by
  unfold classify at h
  split_ifs at h <;> cases p <;> simp [symbolClass] at h <;> assumption

/-- `Other` is given exactly to the durations in no window. -/
theorem classify_other {c : Config} {d : Nat} :
    classify c d = .other ↔ ∀ x ∈ c.pulseLengths, ¬ Matches c d x := by
  simp only [Config.pulseLengths, List.mem_cons, List.not_mem_nil, or_false, forall_eq_or_imp, forall_eq]
  unfold classify
  split_ifs <;> simp_all

/-! ## One pulse (R74 to R83) -/

/-- R74: an edge outside phase `Error`, not before the last one, is its pulse. -/
theorem capEdge_of {c : Config} {cap : CapState} {sink : SinkState} {tact : Nat} (h1 : cap.phase ≠ .error)
    (h2 : cap.lastEdgeTact ≤ tact) : capEdge c cap sink tact =
      .ok (capPulse c (classify c (tact - cap.lastEdgeTact)) { cap with lastEdgeTact := tact } sink) := by
  simp [capEdge, h1, Nat.not_lt.mpr h2]

/-- R82: in phase `Error` an edge changes nothing. -/
theorem capEdge_error {c : Config} {cap : CapState} {sink : SinkState} {tact : Nat} (h : cap.phase = .error) :
    capEdge c cap sink tact = .ok (quiet cap sink) := by
  simp [capEdge, h]

/-- All an edge can answer. -/
theorem capEdge_ok {c : Config} {cap : CapState} {sink : SinkState} {tact : Nat} {a : CapAnswer}
    (h : capEdge c cap sink tact = .ok a) :
    (cap.phase = .error ∧ a = quiet cap sink) ∨
    (cap.phase ≠ .error ∧ cap.lastEdgeTact ≤ tact ∧
      a = capPulse c (classify c (tact - cap.lastEdgeTact)) { cap with lastEdgeTact := tact } sink) := by
  unfold capEdge at h
  split at h
  · next he => cases h; exact .inl ⟨he, rfl⟩
  · next he =>
    split at h
    · cases h
    · next ht => cases h; exact .inr ⟨he, by omega, rfl⟩

/-- The phase machine does not read the last edge's tact and does not write it: timing enters only through the class. -/
theorem capPulse_withEdge (c : Config) (k : PulseClass) (cap : CapState) (sink : SinkState) (t : Nat) :
    capPulse c k { cap with lastEdgeTact := t } sink =
      { capPulse c k cap sink with cap := { (capPulse c k cap sink).cap with lastEdgeTact := t } } := by
  obtain ⟨phase, count, offset, acc, prev, buffer, blocks, last, mic⟩ := cap
  cases phase <;> cases k <;>
    first
    | rfl
    | (simp only [capPulse, edgeInPilot, edgeInData, halfPulse, confirmBit, bufAppend,
        raiseCaptureError, capDeliver, quiet, CapState.atByteBoundary]
       split_ifs <;> rfl)

/-! ## Runs of pulses -/

/-- A run of classified pulses, apart from their tacts, collecting what is emitted. -/
def pulseRun (c : Config) : List PulseClass → CapAnswer → CapAnswer
  | [], a => a
  | k :: ks, a =>
    pulseRun c ks
      { cap := (capPulse c k a.cap a.sink).cap, sink := (capPulse c k a.cap a.sink).sink
        emitted := a.emitted ++ (capPulse c k a.cap a.sink).emitted }

theorem pulseRun_append (c : Config) (ks ls : List PulseClass) (a : CapAnswer) :
    pulseRun c (ks ++ ls) a = pulseRun c ls (pulseRun c ks a) := by
  induction ks generalizing a with
  | nil => rfl
  | cons k ks ih => exact ih _

/-- The events of a run come after those already collected. -/
theorem pulseRun_emitted (c : Config) (ks : List PulseClass) (cap : CapState) (sink : SinkState)
    (es : List OutputEvent) :
    pulseRun c ks ⟨cap, sink, es⟩ = { pulseRun c ks (quiet cap sink) with
      emitted := es ++ (pulseRun c ks (quiet cap sink)).emitted } := by
  induction ks generalizing cap sink es with
  | nil => simp [pulseRun, quiet]
  | cons k ks ih =>
    simp only [pulseRun, quiet, List.nil_append]
    rw [ih, ih (capPulse c k cap sink).cap _ (capPulse c k cap sink).emitted]
    simp [List.append_assoc]

theorem pulseRun_withEdge (c : Config) (ks : List PulseClass) (cap : CapState) (sink : SinkState)
    (es : List OutputEvent) (t : Nat) :
    pulseRun c ks ⟨{ cap with lastEdgeTact := t }, sink, es⟩ =
      { pulseRun c ks ⟨cap, sink, es⟩ with
        cap := { (pulseRun c ks ⟨cap, sink, es⟩).cap with lastEdgeTact := t } } := by
  induction ks generalizing cap sink es with
  | nil => rfl
  | cons k ks ih => simp only [pulseRun, capPulse_withEdge, ih]

/-- The classes of the pulses that edges at the given tacts end, the first measured from `last`. -/
def classesFrom (c : Config) : Nat → List Nat → List PulseClass
  | _, [] => []
  | last, t :: ts => classify c (t - last) :: classesFrom c t ts

/-- The state after a run of CAP.ONEDGE operations at non-decreasing tacts: the run of their classes. -/
theorem execAll_edges {s : State} {cap : CapState} {sink : SinkState} {last : Nat} {es : List (Nat × Level)}
    (hm : s.m = .save cap sink) (hl : cap.phase = .error ∨ cap.lastEdgeTact = last)
    (hmono : (last :: es.map Prod.fst).Pairwise (· ≤ ·)) :
    ∃ t last', execAll (es.map fun e => .capOnedge e.1 e.2) s = .next t ∧ t.cfg = s.cfg ∧
      t.m = .save { (pulseRun s.cfg (classesFrom s.cfg last (es.map Prod.fst)) (quiet cap sink)).cap with
        lastEdgeTact := last' } (pulseRun s.cfg (classesFrom s.cfg last (es.map Prod.fst)) (quiet cap sink)).sink ∧
      t.events = s.events ++
        (pulseRun s.cfg (classesFrom s.cfg last (es.map Prod.fst)) (quiet cap sink)).emitted := by
  induction es generalizing s cap sink last with
  | nil => exact ⟨s, cap.lastEdgeTact, rfl, rfl, by simp [hm, classesFrom, pulseRun, quiet], by simp [classesFrom, pulseRun, quiet]⟩
  | cons e es ih =>
    obtain ⟨tact, level⟩ := e
    simp only [List.map_cons, List.pairwise_cons] at hmono
    have hle : last ≤ tact := hmono.1 tact (by simp)
    obtain ⟨a, hedge, hm', hphase⟩ : ∃ a, capEdge s.cfg cap sink tact = .ok a ∧
        (∃ t', a = { capPulse s.cfg (classify s.cfg (tact - last)) cap sink with
          cap := { (capPulse s.cfg (classify s.cfg (tact - last)) cap sink).cap with lastEdgeTact := t' } }) ∧
        (a.cap.phase = .error ∨ a.cap.lastEdgeTact = tact) := by
      by_cases he : cap.phase = .error
      · refine ⟨_, capEdge_error he, ⟨cap.lastEdgeTact, ?_⟩, .inl he⟩
        simp [capPulse, he, quiet]
        cases cap; simp_all
      · obtain rfl : cap.lastEdgeTact = last := hl.resolve_left he
        refine ⟨_, capEdge_of he hle, ⟨tact, capPulse_withEdge ..⟩, .inr ?_⟩
        rw [capPulse_withEdge]
    obtain ⟨t', rfl⟩ := hm'
    generalize hr : capPulse s.cfg (classify s.cfg (tact - last)) cap sink = r at *
    have hexec : exec (.capOnedge tact level) s =
        .next (s.finish (.save { r.cap with lastEdgeTact := t' } r.sink) r.emitted none) := by
      rw [exec, execCapOnedge, withSave_of _ hm, hedge]; rfl
    obtain ⟨t, last', ht, hcfg, htm, hte⟩ :=
      ih (s := s.finish (.save { r.cap with lastEdgeTact := t' } r.sink) r.emitted none) rfl hphase
        (by simpa using hmono.2)
    have hrun : ∀ ks, pulseRun s.cfg (classify s.cfg (tact - last) :: ks) (quiet cap sink) =
        pulseRun s.cfg ks ⟨r.cap, r.sink, r.emitted⟩ := by
      intro ks; simp only [pulseRun, quiet, hr, List.nil_append]
    simp only [finish_cfg, finish_events, quiet, pulseRun_withEdge] at htm hte
    refine ⟨t, last', ?_, hcfg, ?_, ?_⟩
    · simp only [List.map_cons, execAll, hexec]; exact ht
    · simp only [List.map_cons, classesFrom, hrun]
      rw [htm, pulseRun_emitted s.cfg _ _ _ r.emitted]
      rfl
    · simp only [List.map_cons, classesFrom, hrun]
      rw [hte, pulseRun_emitted s.cfg _ _ _ r.emitted]
      simp [quiet]

/-! ## The runs of a frame -/

/-- R76: a run of pilot pulses in phase `Pilot` counts them. -/
theorem pulseRun_pilots (c : Config) (n : Nat) {cap : CapState} (sink : SinkState) (es : List OutputEvent)
    (h : cap.phase = .pilot) :
    pulseRun c (List.replicate n .pilot) ⟨cap, sink, es⟩ =
      ⟨{ cap with phase := .pilot, pilotCount := cap.pilotCount + n }, sink, es⟩ := by
  induction n generalizing cap with
  | zero => obtain ⟨phase⟩ := cap; cases h; rfl
  | succ n ih =>
    simp only [List.replicate_succ, pulseRun, capPulse, h, edgeInPilot, if_true, quiet, List.append_nil]
    rw [ih (cap := { cap with phase := .pilot, pilotCount := cap.pilotCount + 1 }) rfl]
    simp [Nat.add_assoc, Nat.add_comm 1]

/-- R79: the two half-pulses of a bit confirm it. -/
theorem pulseRun_bit (c : Config) (bit : Bool) {cap : CapState} (sink : SinkState) (es : List OutputEvent)
    (h1 : cap.phase = .sync2 ∨ cap.phase = .data) (h2 : cap.prevPulse = .noPulse) :
    pulseRun c [classOf bit, classOf bit] ⟨cap, sink, es⟩ = ⟨confirmBit bit cap, sink, es⟩ := by
  rcases h1 with h1 | h1 <;> cases bit <;>
    simp [pulseRun, capPulse, h1, classOf, edgeInData, halfPulse, h2, quiet, confirmBit, bufAppend]

/-- R35, R37: the eight bits of a byte, most significant first, put the byte together. -/
theorem confirmBits_byte (v : Byte) {cap : CapState} (h1 : cap.phase = .sync2 ∨ cap.phase = .data)
    (h2 : cap.bitOffset = 0) (h3 : cap.byteAcc = 0x00) :
    (byteBits v).foldl (fun cap bit => confirmBit bit cap) cap =
      { cap with phase := .data, bitOffset := 0, byteAcc := 0x00, prevPulse := .noPulse
                 buffer := cap.buffer ++ [v] } := by
  obtain ⟨phase, count, offset, acc, prev, buffer, blocks, last, mic⟩ := cap
  subst h2 h3
  have hv : (byteBits v).foldl (fun (a : Byte × Nat) bit => (if bit then a.1 ||| bitMask a.2 else a.1, a.2 + 1))
      ((0x00 : Byte), 0) = (v, 8) := by
    revert v; decide +kernel
  simp only [byteBits, List.foldl_cons, List.foldl_nil, Prod.mk.injEq] at hv ⊢
  simp [confirmBit, bufAppend]
  exact hv.1

/-- A run of whole bits is the bits confirmed one after another. -/
theorem pulseRun_bits (c : Config) (bits : List Bool) {cap : CapState} (sink : SinkState) (es : List OutputEvent)
    (h1 : cap.phase = .sync2 ∨ cap.phase = .data) (h2 : cap.prevPulse = .noPulse) :
    pulseRun c (bits.flatMap fun bit => [classOf bit, classOf bit]) ⟨cap, sink, es⟩ =
      ⟨bits.foldl (fun cap bit => confirmBit bit cap) cap, sink, es⟩ := by
  induction bits generalizing cap with
  | nil => rfl
  | cons bit bits ih =>
    rw [List.flatMap_cons, pulseRun_append, pulseRun_bit c bit sink es h1 h2, List.foldl_cons]
    refine ih ?_ ?_ <;> (simp only [confirmBit, bufAppend]; split_ifs <;> simp)

/-- The classes of the data pulses of a payload. -/
def dataClasses (payload : List Byte) : List PulseClass :=
  payload.flatMap fun v => (byteBits v).flatMap fun bit => [classOf bit, classOf bit]

/-- The classes of whole bits are their pulses'. -/
theorem bitPulses_classes (bits : List Bool) : (bits.flatMap bitPulses).map symbolClass =
    (bits.flatMap fun bit => [classOf bit, classOf bit]).map some := by
  induction bits with
  | nil => rfl
  | cons bit bits ih => cases bit <;> simp [bitPulses, bitSymbol, classOf, symbolClass, ih]

/-- The classes of a payload's data pulses. -/
theorem dataPulses_classes (payload : List Byte) :
    (dataPulses payload).map symbolClass = (dataClasses payload).map some := by
  induction payload with
  | nil => rfl
  | cons v vs ih =>
    rw [dataPulses_cons, List.map_append, bitPulses_classes, ih, ← List.map_append]
    rfl

/-- The pause window is no pulse of a frame. -/
theorem pause_not_mem_dataPulses (payload : List Byte) : .pause ∉ dataPulses payload := by
  simp only [dataPulses, List.mem_flatMap, not_exists, not_and]
  rintro v - bit - h
  cases bit <;> simp [bitPulses, bitSymbol] at h

/-- The classes of edges whose durations match the lengths of pulses are the classes of those pulses. -/
theorem classesFrom_of_matches {c : Config} (h : c.ParametersWF) {edge : Nat → Nat} (ps : List PulseSymbol) (k : Nat)
    (hp : .pause ∉ ps)
    (hm : ∀ j p, ps[j]? = some p → Matches c (edge (k + j + 1) - edge (k + j)) (pulseLength c p)) :
    (classesFrom c (edge k) ((List.range ps.length).map fun j => edge (k + 1 + j))).map some =
      ps.map symbolClass := by
  induction ps generalizing k with
  | nil => rfl
  | cons p ps ih =>
    have h0 := classify_symbol h (p := p) (by rintro rfl; simp at hp) (hm 0 p rfl)
    have hs := ih (k + 1) (fun hq => hp (List.mem_cons_of_mem _ hq)) fun j q hq => by
      have := hm (j + 1) q (by simpa using hq)
      rwa [show k + (j + 1) = k + 1 + j by omega] at this
    simp only [List.length_cons, List.range_succ_eq_map, List.map_cons, List.map_map, classesFrom, Nat.add_zero] at h0 hs ⊢
    rw [h0, ← hs]
    simp [Function.comp_def, Nat.add_assoc, Nat.add_comm 1, Nat.add_comm 2]

/-- R35, R79: the data pulses of a payload append its bytes to the buffer and leave the decoder ready for more. -/
theorem pulseRun_data (c : Config) (payload : List Byte) {cap : CapState} (sink : SinkState) (es : List OutputEvent)
    (h : ReadyForByte cap) :
    ∃ phase, (phase = .sync2 ∨ phase = .data) ∧
      pulseRun c (dataClasses payload) ⟨cap, sink, es⟩ =
        ⟨{ cap with phase := phase, buffer := cap.buffer ++ payload }, sink, es⟩ := by
  induction payload generalizing cap with
  | nil => exact ⟨cap.phase, h.inData, by simp [dataClasses, pulseRun]⟩
  | cons v payload ih =>
    have hb := pulseRun_bits c (byteBits v) sink es h.inData h.noHalf
    rw [confirmBits_byte v h.inData h.offsetZero h.accZero] at hb
    obtain ⟨phase, hp, hr⟩ := ih (cap :=
      { cap with phase := .data, bitOffset := 0, byteAcc := 0x00, prevPulse := .noPulse, buffer := cap.buffer ++ [v] })
      ⟨.inr rfl, rfl, rfl, rfl⟩
    refine ⟨phase, hp, ?_⟩
    rw [dataClasses, List.flatMap_cons, pulseRun_append, hb]
    refine hr.trans ?_
    simp [h.offsetZero, h.accZero, h.noHalf]

/-- R77 to R83: the pulses of a frame from its sync1 on, in phase `Pilot` with enough pilots counted, deliver the payload. -/
theorem pulseRun_tail (c : Config) (payload : List Byte) {cap : CapState} (sink : SinkState)
    (h1 : cap.phase = .pilot) (h2 : c.minPilotCount ≤ cap.pilotCount) :
    pulseRun c (.sync1 :: .sync2 :: (dataClasses payload ++ [.term])) (quiet cap sink) =
      capDeliver c { cap with bitOffset := 0, byteAcc := 0x00, prevPulse := .noPulse, buffer := payload } sink := by
  simp only [pulseRun, quiet, capPulse, h1, edgeInPilot, h2, and_self, if_true, edgeInSync1, List.append_nil,
    reduceCtorEq, if_false]
  obtain ⟨phase, hp, hr⟩ := pulseRun_data c payload (cap :=
    { cap with phase := .sync2, bitOffset := 0, byteAcc := 0x00, prevPulse := .noPulse, buffer := [] })
    sink [] ⟨.inl rfl, rfl, rfl, rfl⟩
  rw [pulseRun_append, hr]
  rcases hp with rfl | rfl <;>
    simp [pulseRun, capPulse, edgeInData, CapState.atByteBoundary, capDeliver, capturedBlock]

end Sys2Proof.Machine
end

