-- ==== Sys2Proof/Laws/Decode.lean ====
section
/-! SUPPORT. The fields of operation words: reading a field gives back what was written, and what was read is what the field
holds. One pair of lemmas per field form. -/

namespace Sys2Proof

@[simp] theorem natToBits_length (w n : Nat) : (natToBits w n).length = w := by
  induction w with
  | zero => rfl
  | succ w ih => simp [natToBits, ih]

theorem takeNatFrom_natToBits (w n acc : Nat) (rest : List Bool) :
    takeNatFrom w acc (natToBits w n ++ rest) = .ok (acc * 2 ^ w + n % 2 ^ w, rest) := by
  induction w generalizing acc with
  | zero => simp [takeNatFrom, natToBits, Nat.mod_one]
  | succ w ih =>
    simp only [natToBits, List.cons_append, takeNatFrom, ih]
    have h : n % 2 ^ (w + 1) = 2 ^ w * (n.testBit w).toNat + n % 2 ^ w := by
      have hd := Nat.div_add_mod (n % 2 ^ (w + 1)) (2 ^ w)
      rw [Nat.mod_mod_of_dvd _ (pow_dvd_pow 2 (Nat.le_succ w)), pow_succ, Nat.mod_mul_right_div_self] at hd
      rw [Nat.testBit_eq_decide_div_mod_eq, pow_succ, ← hd]
      rcases Nat.mod_two_eq_zero_or_one (n / 2 ^ w) with h | h <;> simp [h]
    rw [h, pow_succ]
    congr 2
    ring

/-- Reading a field of `w` bits gives back a value that fits it. -/
theorem takeNat_natToBits {w n : Nat} (h : n < 2 ^ w) (rest : List Bool) :
    takeNat w (natToBits w n ++ rest) = .ok (n, rest) := by
  simp [takeNat, takeNatFrom_natToBits, Nat.mod_eq_of_lt h]

theorem natToBits_of_testBit_eq {w m n : Nat} (h : ∀ j < w, m.testBit j = n.testBit j) :
    natToBits w m = natToBits w n := by
  induction w with
  | zero => rfl
  | succ w ih => simp [natToBits, h w (by omega), ih fun j hj => h j (by omega)]

theorem takeNatFrom_ok {w acc n : Nat} {bits rest : List Bool} (h : takeNatFrom w acc bits = .ok (n, rest)) :
    bits = natToBits w n ++ rest ∧ acc * 2 ^ w ≤ n ∧ n < (acc + 1) * 2 ^ w := by
  induction w generalizing acc bits with
  | zero => simp [takeNatFrom] at h; simp [natToBits, h]
  | succ w ih =>
    cases bits with
    | nil => simp [takeNatFrom] at h
    | cons b bits =>
      obtain ⟨hbits, hlo, hhi⟩ := ih (by simpa [takeNatFrom] using h)
      have hb : n / 2 ^ w = 2 * acc + b.toNat := by
        have hpos : 0 < 2 ^ w := by positivity
        apply Nat.le_antisymm
        · exact Nat.lt_succ_iff.mp ((Nat.div_lt_iff_lt_mul hpos).mpr hhi)
        · exact (Nat.le_div_iff_mul_le hpos).mpr hlo
      have ht : n.testBit w = b := by
        rw [Nat.testBit_eq_decide_div_mod_eq, hb]
        cases b
        · simp
        · simp
      refine ⟨by simp [natToBits, ht, hbits], ?_, ?_⟩
      · rw [pow_succ]; cases b <;> simp at hlo <;> nlinarith
      · rw [pow_succ]; cases b <;> simp at hhi <;> nlinarith

/-- What a field of `w` bits reads fits it, and is what its bits hold. -/
theorem takeNat_ok {w n : Nat} {bits rest : List Bool} (h : takeNat w bits = .ok (n, rest)) :
    bits = natToBits w n ++ rest ∧ n < 2 ^ w := by
  obtain ⟨hb, -, hlt⟩ := takeNatFrom_ok h
  exact ⟨hb, by simpa using hlt⟩

@[simp] theorem takeBool_cons (b : Bool) (rest : List Bool) : takeBool (b :: rest) = .ok (b, rest) := rfl

theorem takeBool_ok {b : Bool} {bits rest : List Bool} (h : takeBool bits = .ok (b, rest)) : bits = b :: rest := by
  cases bits with
  | nil => simp [takeBool] at h
  | cons a bits => simp [takeBool] at h; simp [h]

theorem takeBytes_bytesToBits (bytes : List Byte) (rest : List Bool) :
    takeBytes bytes.length (bytesToBits bytes ++ rest) = .ok (bytes, rest) := by
  induction bytes with
  | nil => rfl
  | cons v bytes ih =>
    simp only [bytesToBits, List.flatMap_cons, List.length_cons, List.append_assoc, takeBytes]
    rw [takeNat_natToBits v.isLt]
    simp only [bytesToBits] at ih
    simp [ih]

theorem takeBytes_ok {n : Nat} {bytes : List Byte} {bits rest : List Bool}
    (h : takeBytes n bits = .ok (bytes, rest)) : bits = bytesToBits bytes ++ rest ∧ bytes.length = n := by
  induction n generalizing bits bytes with
  | zero =>
    simp only [takeBytes, Except.ok.injEq, Prod.mk.injEq] at h
    obtain ⟨rfl, rfl⟩ := h
    simp [bytesToBits]
  | succ n ih =>
    simp only [takeBytes] at h
    split at h
    · cases h
    · next v bits' hv =>
      split at h
      · cases h
      · next vs bits'' hvs =>
        obtain ⟨hb, hlt⟩ := takeNat_ok hv
        simp only [Except.ok.injEq, Prod.mk.injEq] at h
        obtain ⟨rfl, rfl⟩ := h
        obtain ⟨hbs, hlen⟩ := ih hvs
        have : (BitVec.ofNat 8 v).toNat = v := by simp; omega
        simp only [bytesToBits, List.flatMap_cons, this, List.append_assoc, List.length_cons, hlen, and_true]
        simp only [bytesToBits] at hbs
        rw [hb, hbs]

theorem takeCounted_countedToBits {c : Config} {bytes : List Byte} (h : bytes.length < 2 ^ c.tactBits)
    (rest : List Bool) : takeCounted c (countedToBits c bytes ++ rest) = .ok (bytes, rest) := by
  simp [takeCounted, countedToBits, takeNat_natToBits h, takeBytes_bytesToBits, bind, Except.bind]

/-- A part of a decoder that answers has a first part that answers. -/
theorem bind_ok {α β : Type} {x : Except DecodeError α} {f : α → Except DecodeError β} {b : β}
    (h : (x >>= f) = .ok b) : ∃ a, x = .ok a ∧ f a = .ok b := by
  cases x with
  | ok a => exact ⟨a, rfl, h⟩
  | error e => cases h

theorem takeCounted_ok {c : Config} {bytes : List Byte} {bits rest : List Bool}
    (h : takeCounted c bits = .ok (bytes, rest)) :
    bits = countedToBits c bytes ++ rest ∧ bytes.length < 2 ^ c.tactBits := by
  obtain ⟨⟨n, bits'⟩, hn, hb⟩ := bind_ok h
  obtain ⟨rfl, hlt⟩ := takeNat_ok hn
  obtain ⟨rfl, rfl⟩ := takeBytes_ok hb
  exact ⟨by simp [countedToBits], hlt⟩

@[simp] theorem ofCode_code (k : BlockKind) : BlockKind.ofCode k.code = .ok k := by cases k <;> rfl

theorem code_lt (k : BlockKind) : k.code < 2 ^ 3 := by cases k <;> decide

theorem code_of_ofCode {n : Nat} {k : BlockKind} (h : BlockKind.ofCode n = .ok k) : k.code = n := by
  unfold BlockKind.ofCode at h
  split at h <;> cases h <;> rfl

theorem takeBlock_blockToBits {c : Config} {b : DataBlock} (h : BlockFits c b) (rest : List Bool) :
    takeBlock c (blockToBits c b ++ rest) = .ok (b, rest) := by
  obtain ⟨h1, h2, h3⟩ := h
  simp only [takeBlock, blockToBits, List.append_assoc]
  rw [takeNat_natToBits (code_lt _)]
  simp only [bind, Except.bind, ofCode_code]
  rw [takeCounted_countedToBits h1]
  simp only [takeNat_natToBits h2, List.cons_append, List.nil_append, takeBool_cons, takeNat_natToBits h3]
  rfl

theorem takeBlock_ok {c : Config} {b : DataBlock} {bits rest : List Bool}
    (h : takeBlock c bits = .ok (b, rest)) : bits = blockToBits c b ++ rest ∧ BlockFits c b := by
  obtain ⟨⟨code, bits1⟩, h1, h⟩ := bind_ok h
  obtain ⟨kind, h2, h⟩ := bind_ok h
  obtain ⟨⟨payload, bits2⟩, h3, h⟩ := bind_ok h
  obtain ⟨⟨count, bits3⟩, h4, h⟩ := bind_ok h
  obtain ⟨⟨flag, bits4⟩, h5, h⟩ := bind_ok h
  obtain ⟨⟨ms, bits5⟩, h6, h⟩ := bind_ok h
  have hr : DataBlock.mk kind payload count flag ms = b ∧ bits5 = rest := by
    simpa [pure, Except.pure] using h
  obtain ⟨rfl, -⟩ := takeNat_ok h1
  obtain ⟨rfl, hlen⟩ := takeCounted_ok h3
  obtain ⟨rfl, hcount⟩ := takeNat_ok h4
  obtain rfl := takeBool_ok h5
  obtain ⟨rfl, hms⟩ := takeNat_ok h6
  obtain ⟨rfl, rfl⟩ := hr
  exact ⟨by simp [blockToBits, code_of_ofCode h2], hlen, hcount, hms⟩

/-- The operation number fits the 8-bit field of R56. -/
theorem number_lt (i : Instr) : i.number < 2 ^ 8 := by
  cases i <;> simp [Instr.number]

/-- All a tact operand can read. -/
theorem takeTactOperand_ok {c : Config} {make : Nat → Instr} {bits rest : List Bool} {i : Instr}
    (h : takeTactOperand c make bits = .ok (i, rest)) :
    ∃ t, i = make t ∧ t < 2 ^ c.tactBits ∧ bits = natToBits c.tactBits t ++ rest := by
  obtain ⟨⟨t, bits'⟩, ht, h⟩ := bind_ok h
  obtain ⟨hbits, hlt⟩ := takeNat_ok ht
  simp only [pure, Except.pure, Except.ok.injEq, Prod.mk.injEq] at h
  exact ⟨t, h.1.symm, hlt, by rw [hbits, h.2]⟩

/-- The character of a byte has the byte's code point (R52). -/
theorem charOfByte_toNat (v : Byte) : (charOfByte v).toNat = v.toNat := by
  have hv : v.toNat < 256 := v.isLt
  unfold charOfByte
  rw [Char.ofNat]
  split
  · rfl
  · next h => exact absurd (Or.inl (by omega)) h

/-- A character whose code point is a byte is the character of that byte. -/
theorem charOfByte_ofNat {ch : Char} (h : ch.toNat < 256) : charOfByte (BitVec.ofNat 8 ch.toNat) = ch := by
  unfold charOfByte
  rw [BitVec.toNat_ofNat, Nat.mod_eq_of_lt h]
  exact Char.ofNat_toNat ch

end Sys2Proof
end

