-- ==== Sys2Proof/Laws/Playback.lean ====
section
/-! SUPPORT. What the engine and the sequencer can do: one lemma for an engine query, one for every answer of the sequencer's
loop, and one for the answer it must give over a tape whose kinds are specified. -/

namespace Sys2Proof.Machine

/-! ## Engine (R61) -/

/-- An engine query from the start on answers the closed form of the block its index stands for. -/
theorem engQuery_of_signalBlock {c : Config} {eng : EngState} {b : DataBlock} {tact : Nat}
    (hb : signalBlock c eng.block = .ok b) (ht : eng.startTact ≤ tact) :
    engQuery c eng tact = .ok { eng with
      phase := (signal c b (tact - eng.startTact)).1, level := (signal c b (tact - eng.startTact)).2 } := by
  simp [engQuery, hb, Nat.not_lt.mpr ht]

/-- An engine query of a standard block from its start on answers the closed form. -/
theorem engQuery_of {c : Config} {eng : EngState} {b : DataBlock} {tact : Nat} (hb : c.tape[eng.block]? = some b)
    (hk : b.kind = .standardData) (ht : eng.startTact ≤ tact) :
    engQuery c eng tact = .ok { eng with
      phase := (signal c b (tact - eng.startTact)).1, level := (signal c b (tact - eng.startTact)).2 } :=
  engQuery_of_signalBlock (signalBlock_of hb hk) ht

/-- R61: before the start an engine query is refused. -/
theorem engQuery_of_lt {c : Config} {eng : EngState} {tact : Nat}
    (hb : ∀ b, c.tape[eng.block]? = some b → b.kind = .standardData) (ht : tact < eng.startTact) :
    engQuery c eng tact = .error .tactBeforeBlockStart := by
  obtain ⟨b, hb⟩ := signalBlock_total hb
  simp [engQuery, hb, ht]

/-- All an engine query can answer. -/
theorem engQuery_ok {c : Config} {eng eng' : EngState} {tact : Nat} (h : engQuery c eng tact = .ok eng') :
    ∃ b, signalBlock c eng.block = .ok b ∧ eng.startTact ≤ tact ∧
      eng' = { eng with
        phase := (signal c b (tact - eng.startTact)).1, level := (signal c b (tact - eng.startTact)).2 } := by
  unfold engQuery at h
  split at h
  · cases h
  · next b hb =>
    split at h
    · cases h
    · next ht => cases h; exact ⟨b, hb, by omega, rfl⟩

/-- The signal is high in the pause and after it. -/
theorem signal_resting {c : Config} {b : DataBlock} {r : Nat}
    (h : (signal c b r).1 = .notStarted ∨ (signal c b r).1 = .pause ∨ (signal c b r).1 = .completed) :
    (signal c b r).2 = high := by
  rcases signal_cases c b r with ⟨-, e⟩ | ⟨-, -, e⟩ | ⟨k, p, -, hp, -, -, e⟩
  · rw [e]
  · rw [e]
  · exfalso
    rw [e] at h
    have := frame_phase hp
    simp only at h
    split_ifs at this <;> simp [this] at h

/-- The phase is `Completed` exactly past the pause. -/
theorem signal_completed_iff {c : Config} {b : DataBlock} {r : Nat} :
    (signal c b r).1 = .completed ↔ totTacts c b ≤ r := by
  constructor
  · intro h
    rcases signal_cases c b r with ⟨hr, -⟩ | ⟨-, -, e⟩ | ⟨k, p, -, hp, -, -, e⟩
    · exact hr
    · rw [e] at h; cases h
    · rw [e] at h
      have := frame_phase hp
      simp only at h
      split_ifs at this <;> simp [this] at h
  · intro h; rw [signal_completed h]

/-! ## Sequencer (R68) -/

/-- An engine that has not started, or is in its pause or completed, is at the resting level. -/
def Resting (eng : EngState) : Prop :=
  eng.phase = .notStarted ∨ eng.phase = .pause ∨ eng.phase = .completed → eng.level = high

/-- What every answer of the loop satisfies: it only moves forward; from an index in the tape it stays in the tape and ends
the tape only at the last block; and an engine it has advanced is bound to the sequencer's block. -/
structure LoopAnswer (c : Config) (seq : SeqState) (eng : EngState) (a : EarAnswer) : Prop where
  forward : seq.blockIndex ≤ a.seq.blockIndex
  inTape : seq.blockIndex < c.tape.length → a.seq.blockIndex < c.tape.length
  startForward : eng.startTact ≤ a.eng.startTact
  eofAtLast : a.seq.eof = seq.eof ∨ a.seq.eof = true ∧ a.level = high ∧
    (seq.blockIndex < c.tape.length → a.seq.blockIndex + 1 = c.tape.length)
  sameBlock : a.seq.blockIndex = seq.blockIndex → a.eng.block = eng.block
  newBlock : a.seq.blockIndex ≠ seq.blockIndex → a.eng.block = a.seq.blockIndex
  resting : Resting eng → Resting a.eng

/-- All the loop can answer, from any registers. -/
theorem seqLoop_ok {c : Config} {tact : Nat} {blocks : List DataBlock} {seq : SeqState} {eng : EngState}
    {a : EarAnswer} (hblocks : blocks = c.tape.drop seq.blockIndex) (h : seqLoop c tact blocks seq eng = .ok a) :
    LoopAnswer c seq eng a := by
  have here : ∀ (seq : SeqState) (eng eng' : EngState) (eof : Bool) (l : Level),
      (eof = seq.eof ∨ eof = true ∧ l = high ∧
        (seq.blockIndex < c.tape.length → seq.blockIndex + 1 = c.tape.length)) →
      eng'.block = eng.block → eng'.startTact = eng.startTact → (Resting eng → Resting eng') →
      LoopAnswer c seq eng { level := l, seq := { seq with eof := eof }, eng := eng' } :=
    fun seq eng eng' eof l he hb hs hr => ⟨Nat.le_refl _, id, Nat.le_of_eq hs.symm, he, fun _ => hb,
      fun hne => absurd rfl hne, hr⟩
  induction blocks generalizing seq eng with
  | nil =>
    have hge : c.tape.length ≤ seq.blockIndex := by simpa using hblocks.symm
    unfold seqLoop seqOutsideTape at h
    split at h
    · cases h
      exact here seq eng _ true high (.inr ⟨rfl, rfl, fun hlt => by omega⟩) rfl rfl fun _ _ => rfl
    · split at h
      · cases h
      · next eng' hq =>
        obtain ⟨b', -, -, rfl⟩ := engQuery_ok hq
        split at h
        · cases h
          exact here seq eng _ true high (.inr ⟨rfl, rfl, fun hlt => by omega⟩) rfl rfl fun _ _ => rfl
        · cases h
          exact here seq eng _ seq.eof _ (.inl rfl) rfl rfl fun _ => signal_resting
  | cons b rest ih =>
    have hlt : seq.blockIndex < c.tape.length := by
      by_contra hge
      rw [List.drop_eq_nil_of_le (by omega)] at hblocks
      cases hblocks
    have hrest : rest = c.tape.drop (seq.blockIndex + 1) := by
      rw [← List.tail_drop, ← hblocks]; rfl
    have hlast : rest = [] → seq.blockIndex + 1 = c.tape.length := by
      intro hn
      have := congrArg List.length hrest
      simp [hn] at this
      omega
    have hnext : ∀ b' rest', rest = b' :: rest' → seq.blockIndex + 1 < c.tape.length := by
      intro b' rest' hr
      have := congrArg List.length hrest
      simp [hr] at this
      omega
    have advance : seq.blockIndex + 1 < c.tape.length → ∀ (start : Nat), eng.startTact ≤ start →
        seqLoop c tact rest { seq with blockIndex := seq.blockIndex + 1 }
          (engFresh (seq.blockIndex + 1) start) = .ok a → LoopAnswer c seq eng a := by
      intro hn start hstart h
      have A := ih (seq := { seq with blockIndex := seq.blockIndex + 1 }) hrest h
      have hb : a.eng.block = a.seq.blockIndex := by
        by_cases he : a.seq.blockIndex = seq.blockIndex + 1
        · rw [A.sameBlock he, he]; rfl
        · exact A.newBlock he
      have hf : seq.blockIndex + 1 ≤ a.seq.blockIndex := A.forward
      exact ⟨by omega, fun _ => A.inTape hn, Nat.le_trans hstart A.startForward,
        A.eofAtLast.imp_right fun ⟨he, hl, hlast⟩ => ⟨he, hl, fun _ => hlast hn⟩, fun he => by omega, fun _ => hb,
        fun _ => A.resting fun _ => rfl⟩
    unfold seqLoop at h
    split at h
    · split at h
      · cases h
      · next eng' hq =>
        obtain ⟨b', -, -, rfl⟩ := engQuery_ok hq
        split at h
        · split at h
          · cases h
            exact here seq eng _ true high (.inr ⟨rfl, rfl, fun _ => hlast rfl⟩) rfl rfl fun _ _ => rfl
          · exact advance (hnext _ _ rfl) _ (Nat.le_add_right _ _) h
        · cases h
          exact here seq eng _ seq.eof _ (.inl rfl) rfl rfl fun _ => signal_resting
    · split at h
      · cases h
        exact here seq eng _ true high (.inr ⟨rfl, rfl, fun _ => hlast rfl⟩) rfl rfl fun _ _ => rfl
      · exact advance (hnext _ _ rfl) _ (Nat.le_refl _) h
    all_goals cases h

/-- All a sequencer query can answer. -/
theorem seqQuery_ok {c : Config} {tact : Nat} {seq : SeqState} {eng : EngState} {a : EarAnswer}
    (h : seqQuery c seq eng tact = .ok a) :
    (seq.eof = true ∧ a = { level := high, seq := seq, eng := eng }) ∨
    (seq.eof = false ∧ seqLoop c tact (c.tape.drop seq.blockIndex) seq eng = .ok a) := by
  unfold seqQuery at h
  split at h
  · next he => cases h; exact .inl ⟨he, rfl⟩
  · next he => exact .inr ⟨by simpa using he, h⟩

/-- R66, R68: over a tape whose kinds are specified the loop answers at every tact from the current block's start on. -/
theorem seqLoop_answers {c : Config} {tact : Nat} (hkinds : c.TapeKindsSpecified) {blocks : List DataBlock}
    {seq : SeqState} {eng : EngState} (hblocks : blocks = c.tape.drop seq.blockIndex) (hne : blocks ≠ [])
    (hbound : eng.block = seq.blockIndex) (ht : eng.startTact ≤ tact) :
    ∃ a, seqLoop c tact blocks seq eng = .ok a ∧ a.eng.block = a.seq.blockIndex ∧ a.eng.startTact ≤ tact := by
  induction blocks generalizing seq eng with
  | nil => exact absurd rfl hne
  | cons b rest ih =>
    have hget : c.tape[seq.blockIndex]? = some b := by
      have := congrArg (·[0]?) hblocks
      simpa using this.symm
    have hrest : rest = c.tape.drop (seq.blockIndex + 1) := by
      rw [← List.tail_drop, ← hblocks]; rfl
    have advance : rest ≠ [] → ∀ start, start ≤ tact →
        ∃ a, seqLoop c tact rest { seq with blockIndex := seq.blockIndex + 1 }
          (engFresh (seq.blockIndex + 1) start) = .ok a ∧ a.eng.block = a.seq.blockIndex ∧ a.eng.startTact ≤ tact :=
      fun hr start hle => ih (seq := { seq with blockIndex := seq.blockIndex + 1 })
        (eng := engFresh (seq.blockIndex + 1) start) hrest hr rfl hle
    rcases hkinds b (List.mem_of_getElem? hget) with hk | hk
    · simp only [seqLoop, hk]
      rw [engQuery_of (hbound ▸ hget) hk ht]
      by_cases hc : totTacts c b ≤ tact - eng.startTact
      · simp only [signal_completed hc, if_true]
        cases hr : rest with
        | nil => exact ⟨_, rfl, hbound, ht⟩
        | cons b2 rest2 =>
          have A := advance (by simp [hr]) (eng.startTact + totTacts c b) (by omega)
          rw [hr] at A
          exact A
      · have hne : (signal c b (tact - eng.startTact)).1 ≠ .completed := by
          rw [Ne, signal_completed_iff]; exact hc
        simp only [hne, if_false]
        exact ⟨_, rfl, hbound, ht⟩
    · simp only [seqLoop, hk]
      cases hr : rest with
      | nil => exact ⟨_, rfl, hbound, ht⟩
      | cons b2 rest2 =>
        have A := advance (by simp [hr]) eng.startTact ht
        rw [hr] at A
        exact A

/-- R68: a sequencer query answers from any registers that the invariant allows. -/
theorem seqQuery_answers {c : Config} {tact : Nat} (hkinds : c.TapeKindsSpecified) {seq : SeqState} {eng : EngState}
    (hinv : LoadInv c seq eng) (hbound : eng.block = seq.blockIndex) (ht : eng.startTact ≤ tact) :
    ∃ a, seqQuery c seq eng tact = .ok a ∧ a.eng.block = a.seq.blockIndex ∧ a.eng.startTact ≤ tact := by
  unfold seqQuery
  split_ifs with he
  · exact ⟨_, rfl, hbound, ht⟩
  · refine seqLoop_answers hkinds rfl ?_ hbound ht
    have hne : c.tape ≠ [] := fun e => he (by rw [hinv.emptyTape e])
    have := hinv.indexInTape.resolve_left hne
    simpa using this

/-- R70: the next slot starts where this one ends. -/
theorem slotStart_succ {c : Config} {t0 j : Nat} {b : DataBlock} (h : c.tape[j]? = some b) :
    slotStart c t0 (j + 1) = slotStart c t0 j + (slotTacts c b).getD 0 := by
  obtain ⟨hj, he⟩ := List.getElem?_eq_some_iff.mp h
  simp [slotStart, List.take_succ_eq_append_getElem hj, he, Nat.add_assoc]

theorem slotStart_mono (c : Config) (t0 : Nat) {i j : Nat} (h : i ≤ j) : slotStart c t0 i ≤ slotStart c t0 j := by
  unfold slotStart
  have := sum_take_le (c.tape.map fun b => (slotTacts c b).getD 0) i j h
  rw [← List.map_take, ← List.map_take] at this
  omega

/-- What R70 says of an answer at a tact, in a session begun at `t0`. -/
structure ClosedAnswer (c : Config) (t0 tact : Nat) (a : EarAnswer) : Prop where
  bound : a.eng.block = a.seq.blockIndex
  atSlot : a.eng.startTact = slotStart c t0 a.seq.blockIndex
  started : a.eng.startTact ≤ tact
  answer : (a.seq.eof = true ∧ a.level = high ∧ slotStart c t0 c.tape.length ≤ tact) ∨
    (a.seq.eof = false ∧ ∃ b, SlotHolds c t0 tact a.seq.blockIndex b ∧
      a.level = (signal c b (tact - slotStart c t0 a.seq.blockIndex)).2)

/-- R70: the answer the loop must give over a tape whose kinds are specified, from registers that stand at their slot. -/
theorem seqLoop_closed {c : Config} {t0 tact : Nat} (hkinds : c.TapeKindsSpecified) {blocks : List DataBlock}
    {seq : SeqState} {eng : EngState} (hblocks : blocks = c.tape.drop seq.blockIndex) (hne : blocks ≠ [])
    (heof : seq.eof = false) (hbound : eng.block = seq.blockIndex)
    (hstart : eng.startTact = slotStart c t0 seq.blockIndex) (ht : eng.startTact ≤ tact) :
    ∃ a, seqLoop c tact blocks seq eng = .ok a ∧ ClosedAnswer c t0 tact a := by
  induction blocks generalizing seq eng with
  | nil => exact absurd rfl hne
  | cons b rest ih =>
    have hlt : seq.blockIndex < c.tape.length := by
      by_contra hge
      rw [List.drop_eq_nil_of_le (by omega)] at hblocks
      cases hblocks
    have hget : c.tape[seq.blockIndex]? = some b := by
      have := congrArg (·[0]?) hblocks
      simpa using this.symm
    have hrest : rest = c.tape.drop (seq.blockIndex + 1) := by
      rw [← List.tail_drop, ← hblocks]; rfl
    have hlast : rest = [] → seq.blockIndex + 1 = c.tape.length := by
      intro hn
      have := congrArg List.length hrest
      simp [hn] at this
      omega
    have hslot := slotStart_succ (t0 := t0) hget
    have advance : rest ≠ [] → ∀ start, start = slotStart c t0 (seq.blockIndex + 1) → start ≤ tact →
        ∃ a, seqLoop c tact rest { seq with blockIndex := seq.blockIndex + 1 }
          (engFresh (seq.blockIndex + 1) start) = .ok a ∧ ClosedAnswer c t0 tact a :=
      fun hr start hs hle => ih (seq := { seq with blockIndex := seq.blockIndex + 1 })
        (eng := engFresh (seq.blockIndex + 1) start) hrest hr heof rfl hs hle
    rcases hkinds b (List.mem_of_getElem? hget) with hk | hk
    · simp only [slotTacts, hk, Option.getD_some] at hslot
      simp only [seqLoop, hk]
      rw [engQuery_of (hbound ▸ hget) hk ht]
      by_cases hc : totTacts c b ≤ tact - eng.startTact
      · simp only [signal_completed hc, if_true]
        cases hr : rest with
        | nil =>
          refine ⟨_, rfl, hbound, hstart, ht, .inl ⟨rfl, rfl, ?_⟩⟩
          rw [← hlast hr]; omega
        | cons b2 rest2 =>
          have A := advance (by simp [hr]) (eng.startTact + totTacts c b) (by omega) (by omega)
          rw [hr] at A
          exact A
      · have hne : (signal c b (tact - eng.startTact)).1 ≠ .completed := by
          rw [Ne, signal_completed_iff]; exact hc
        simp only [hne, if_false]
        refine ⟨_, rfl, hbound, hstart, ht, .inr ⟨heof, b, ⟨hget, hk, ?_, ?_⟩, ?_⟩⟩
        · simp only; omega
        · simp only; omega
        · simp only [hstart]
    · simp only [slotTacts, hk, Option.getD_some] at hslot
      simp only [seqLoop, hk]
      cases hr : rest with
      | nil =>
        refine ⟨_, rfl, hbound, hstart, ht, .inl ⟨rfl, rfl, ?_⟩⟩
        rw [← hlast hr]; omega
      | cons b2 rest2 =>
        have A := advance (by simp [hr]) eng.startTact (by omega) (by omega)
        rw [hr] at A
        exact A

end Sys2Proof.Machine
end

