-- ==== Sys2Proof/Laws/Invariant.lean ====
section
/-! SUPPORT. Each shared operation keeps the invariant of the session it acts on. -/

namespace Sys2Proof.Machine

/-! ## The Load session -/

/-- R67: the registers a playback session begins with. -/
theorem loadInv_start (c : Config) (tact : Nat) : LoadInv c (seqStart c tact).1 (seqStart c tact).2 := by
  have h : c.tape = [] ∨ 0 < c.tape.length := by
    cases c.tape <;> simp
  exact ⟨h, fun e => by simp [seqStart, e], fun e => .inl (by simpa [seqStart] using e), fun _ => rfl⟩

/-- R60: a fresh engine, whatever block it is bound to. -/
theorem loadInv_engFresh {c : Config} {seq : SeqState} {eng : EngState} (i start : Nat) (h : LoadInv c seq eng) :
    LoadInv c seq (engFresh i start) :=
  ⟨h.indexInTape, h.emptyTape, h.eofAtLast, fun _ => rfl⟩

/-- R61: an engine query. -/
theorem loadInv_engQuery {c : Config} {seq : SeqState} {eng eng' : EngState} {tact : Nat} (h : LoadInv c seq eng)
    (hq : engQuery c eng tact = .ok eng') : LoadInv c seq eng' := by
  obtain ⟨b, -, -, rfl⟩ := engQuery_ok hq
  exact ⟨h.indexInTape, h.emptyTape, h.eofAtLast, signal_resting⟩

/-- R68: a sequencer query. -/
theorem loadInv_seqQuery {c : Config} {seq : SeqState} {eng : EngState} {tact : Nat} {a : EarAnswer}
    (h : LoadInv c seq eng) (hq : seqQuery c seq eng tact = .ok a) : LoadInv c a.seq a.eng := by
  rcases seqQuery_ok hq with ⟨-, rfl⟩ | ⟨he, hl⟩
  · exact h
  · have A := seqLoop_ok rfl hl
    have hne : c.tape ≠ [] := fun e => by simp [h.emptyTape e] at he
    have hlt := h.indexInTape.resolve_left hne
    refine ⟨.inr (A.inTape hlt), fun e => absurd e hne, fun e => ?_, A.resting h.restingHigh⟩
    rcases A.eofAtLast with h' | ⟨-, -, h'⟩
    · rw [h', he] at e; cases e
    · exact .inr (h' hlt)

/-! ## The Save session -/

/-- R72: the registers a capture session begins with. -/
theorem saveInv_fresh (c : Config) (tact : Nat) : SaveInv c (capFresh tact) sinkFresh :=
  ⟨by simp [capFresh], by simp [capFresh], by simp [capFresh], by simp [capFresh], by simp [capFresh],
    by simp [capFresh, sinkFresh]⟩

/-- R96: a capture error. -/
theorem saveInv_error {c : Config} {cap : CapState} {sink : SinkState} (k : CaptureErrorKind)
    (h : SaveInv c cap sink) : SaveInv c (raiseCaptureError k cap) sink :=
  ⟨h.offsetInByte, h.lowBitsZero, by simp [raiseCaptureError], by simp [raiseCaptureError],
    by simp [raiseCaptureError], h.fileIffBlock⟩

/-- R83: a completion. -/
theorem saveInv_deliver {c : Config} {cap : CapState} {sink : SinkState} (h : SaveInv c cap sink) :
    SaveInv c (capDeliver c cap sink).cap (capDeliver c cap sink).sink := by
  have hf := h.fileIffBlock
  simp only [capDeliver]
  split_ifs with h1
  · exact ⟨h.offsetInByte, h.lowBitsZero, by simp, by simp, by simp, by simp⟩
  · refine ⟨h.offsetInByte, h.lowBitsZero, by simp, by simp, by simp, ?_⟩
    simp only at h1 ⊢
    rw [hf]; omega

/-- R22: a mask has no bit below its own. -/
theorem bitMask_low {k j : Nat} (h : j + k + 1 < 8) : (bitMask k).getLsbD j = false := by
  have hk : k < 8 := by omega
  have hj : j < 8 := by omega
  interval_cases k <;> interval_cases j <;> first | rfl | omega

/-- R79: a half-pulse. -/
theorem saveInv_halfPulse {c : Config} {cap : CapState} {sink : SinkState} (half : PrevPulse) (bit : Bool)
    (h : SaveInv c cap sink) (hp : cap.phase = .sync2 ∨ cap.phase = .data) :
    SaveInv c (halfPulse half bit cap) sink := by
  have hn : c.minPilotCount ≤ cap.pilotCount := h.enoughPilots (.inr hp)
  have ho := h.offsetInByte
  unfold halfPulse
  split_ifs
  · exact ⟨ho, h.lowBitsZero, by simp, by simp, fun _ => hn, h.fileIffBlock⟩
  · simp only [confirmBit, bufAppend]
    by_cases h8 : cap.bitOffset + 1 = 8
    · rw [if_pos h8]
      exact ⟨by simp, by simp, by simp, by simp, fun _ => hn, h.fileIffBlock⟩
    · rw [if_neg h8]
      refine ⟨by simp only; omega, ?_, by simp, by simp, fun _ => hn, h.fileIffBlock⟩
      intro j hj
      simp only at hj ⊢
      have hlow := h.lowBitsZero j (by omega)
      split_ifs
      · rw [BitVec.getLsbD_or, hlow, bitMask_low (by omega)]; rfl
      · exact hlow
  · exact saveInv_error .framing h

/-- R74 to R82: a pulse, whatever its class and the phase. -/
theorem saveInv_pulse {c : Config} {cap : CapState} {sink : SinkState} (k : PulseClass) (h : SaveInv c cap sink) :
    SaveInv c (capPulse c k cap sink).cap (capPulse c k cap sink).sink := by
  have data : cap.phase = .sync2 ∨ cap.phase = .data →
      SaveInv c (edgeInData c k cap sink).cap (edgeInData c k cap sink).sink := by
    intro hp
    cases k <;> simp only [edgeInData]
    case bit0 => exact saveInv_halfPulse _ _ h hp
    case bit1 => exact saveInv_halfPulse _ _ h hp
    case term => split_ifs; exacts [saveInv_deliver h, saveInv_error .framing h]
    all_goals exact saveInv_error .framing h
  cases hp : cap.phase <;> simp only [capPulse, hp]
  · unfold edgeInNone quiet
    split_ifs
    · exact ⟨h.offsetInByte, h.lowBitsZero, by simp, by simp, by simp, h.fileIffBlock⟩
    · exact h
  · unfold edgeInPilot quiet
    split_ifs with h1 h2
    · exact ⟨h.offsetInByte, h.lowBitsZero, by simp [hp], by simp, by simp [hp], h.fileIffBlock⟩
    · exact ⟨h.offsetInByte, h.lowBitsZero, by simp, by simp, fun _ => h2.2, h.fileIffBlock⟩
    · exact saveInv_error .framing h
  · unfold edgeInSync1 quiet
    split_ifs
    · exact ⟨by simp, by simp, by simp [CapState.atByteBoundary], by simp,
        fun _ => h.enoughPilots (.inl hp), h.fileIffBlock⟩
    · exact saveInv_error .framing h
  · exact data (.inl hp)
  · exact data (.inr hp)
  · exact h

/-- R74, R82: an edge. -/
theorem saveInv_edge {c : Config} {cap : CapState} {sink : SinkState} {tact : Nat} {a : CapAnswer}
    (h : SaveInv c cap sink) (hq : capEdge c cap sink tact = .ok a) : SaveInv c a.cap a.sink := by
  rcases capEdge_ok hq with ⟨-, rfl⟩ | ⟨-, -, rfl⟩
  · exact h
  · exact saveInv_pulse _ ⟨h.offsetInByte, h.lowBitsZero, h.sync2Fresh, h.pilotSeen, h.enoughPilots, h.fileIffBlock⟩

end Sys2Proof.Machine
end

