-- ==== Sys2Proof/Laws/PerInstr.lean ====
section
/-! SUPPORT. The family OpNumber: what every operation word begins with (R56), one lemma per constructor. -/

namespace Sys2Proof.Laws.OpNumber

/-- R56: an operation word begins with the 8-bit operation number, after which the decoder stands at the operands. -/
def Statement (i : Instr) : Prop :=
  i.number < 256 ∧ ∀ (c : Config) (rest : List Bool),
    takeNat 8 (encode c i ++ rest) = .ok (i.number, operandBits c i ++ rest)

/-- The lemma every constructor's follows from. -/
theorem of_number (i : Instr) : Statement i := by
  refine ⟨number_lt i, fun c rest => ?_⟩
  rw [encode, List.append_assoc, takeNat_natToBits (number_lt i)]

theorem reset : Statement .reset := of_number _
theorem fetch (pc tact : Nat) : Statement (.fetch pc tact) := of_number _
theorem earrd (tact : Nat) : Statement (.earrd tact) := of_number _
theorem micwr (tact : Nat) (level : Level) : Statement (.micwr tact level) := of_number _
theorem engNew (blockIndex startTact : Nat) : Statement (.engNew blockIndex startTact) := of_number _
theorem engSignalat (tact : Nat) : Statement (.engSignalat tact) := of_number _
theorem seqInitplay (startTact : Nat) : Statement (.seqInitplay startTact) := of_number _
theorem seqGetearbit (tact : Nat) : Statement (.seqGetearbit tact) := of_number _
theorem capInit (tact : Nat) : Statement (.capInit tact) := of_number _
theorem capClassify (d : Nat) : Statement (.capClassify d) := of_number _
theorem capOnedge (tact : Nat) (level : Level) : Statement (.capOnedge tact level) := of_number _
theorem capComplete : Statement .capComplete := of_number _
theorem capSilent (tact : Nat) : Statement (.capSilent tact) := of_number _
theorem enteredLoad : Statement .enteredLoad := of_number _
theorem leftLoad : Statement .leftLoad := of_number _
theorem enteredSave : Statement .enteredSave := of_number _
theorem leftSave : Statement .leftSave := of_number _
theorem createFile : Statement .createFile := of_number _
theorem setName (name : Name) : Statement (.setName name) := of_number _
theorem appendBlock (block : DataBlock) : Statement (.appendBlock block) := of_number _
theorem finalize : Statement .finalize := of_number _
theorem pilot : Statement .pilot := of_number _
theorem sync1 : Statement .sync1 := of_number _
theorem sync2 : Statement .sync2 := of_number _
theorem bit0 : Statement .bit0 := of_number _
theorem bit1 : Statement .bit1 := of_number _
theorem term : Statement .term := of_number _
theorem pause : Statement .pause := of_number _

end Sys2Proof.Laws.OpNumber
end

