-- ==== Sys2Proof/Laws/Step.lean ====
section
/-! SUPPORT. What a step can do, and what the sequences of operations can do. -/

namespace Sys2Proof.Machine

/-- R105: with no request pending a step holds the state. -/
theorem step_idle {s : State} (h : s.input = []) : step s = .next s := by
  simp [step, h]

/-- A step performs the operation its pending request decodes to. -/
theorem step_of_decode {s : State} {i : Instr} {rest : List Bool} (hwf : s.cfg.ParametersWF)
    (hd : decode s.cfg s.input = .ok (i, rest)) : step s = exec i { s with input := rest } := by
  unfold step
  rw [if_neg (by rintro h; rw [h] at hd; cases hd), if_pos hwf, hd]

/-- All a step can answer next: it idles, or it performs a decoded operation under a well-formed configuration. -/
theorem step_next {s t : State} (h : step s = .next t) :
    (s.input = [] ∧ t = s) ∨
    ∃ i rest, s.input ≠ [] ∧ s.cfg.ParametersWF ∧ decode s.cfg s.input = .ok (i, rest) ∧
      exec i { s with input := rest } = .next t := by
  by_cases hi : s.input = []
  · rw [step_idle hi] at h; cases h; exact .inl ⟨hi, rfl⟩
  · by_cases hwf : s.cfg.ParametersWF
    · refine .inr ?_
      unfold step at h
      rw [if_neg hi, if_pos hwf] at h
      split at h
      · next i rest hd => exact ⟨i, rest, hi, hwf, hd, h⟩
      · cases h
    · unfold step at h
      rw [if_neg hi, if_neg hwf] at h
      cases h

end Sys2Proof.Machine
end

