-- ==== Sys2Proof/Tests/Slice0.lean ====
section
/-! SUPPORT. The model's own tests, with the results the spec gives (95_test_vectors.md, and the examples of the rules), and a
witness for the hypotheses of every statement. The configuration is TOY of 00_scope.md R7. -/

namespace Sys2Proof.Tests

set_option Elab.async false

open Sys2Proof Sys2Proof.Machine

/-! ## The configuration and the states the tests use -/

/-- TOY (R7) with a tape. -/
def toy (tape : List DataBlock) : Config where
  pilotPL := 20
  sync1PL := 6
  sync2PL := 9
  bit0PL := 12
  bit1PL := 24
  termSyncPL := 15
  headerPilotCount := 9
  dataPilotCount := 5
  pauseMs := 1
  tolerance := 1
  minPilotCount := 4
  silenceThreshold := 500
  loadEntryAddr := 0x056C
  saveEntryAddr := 0x04C2
  errorHandlerAddr := 0x0008
  addrBits := 16
  clockHz := 100000
  tactBits := 64
  headerLen := 19
  nameOffset := 2
  nameLen := 10
  captureBufferBytes := 65536
  tape := tape

/-- TOY with 4-bit operands, for words that can be written out bit by bit. -/
def small : Config := { toy [] with addrBits := 4, tactBits := 4 }

/-- `B0` of 95_test_vectors.md. -/
def B0 : DataBlock := ⟨.standardData, [0x90], 3, false, 1⟩

/-- `B1` of 95_test_vectors.md. -/
def B1 : DataBlock := ⟨.standardData, [], 2, false, 0⟩

/-- `DESC` of 95_test_vectors.md. -/
def DESC : DataBlock := ⟨.description, [], 0, false, 0⟩

/-- A block that the round-trip law is about. -/
def R5 : DataBlock := ⟨.standardData, [0x90], 5, false, 1⟩

/-- `HDR` of 95_test_vectors.md. -/
def HDR : List Byte :=
  [0x00, 0x00, 0x42, 0x6F, 0x72, 0x64, 0x65, 0x72, 0x20, 0x20] ++
    [0x20, 0x20, 0x0A, 0x00, 0x0A, 0x00, 0x0A, 0x00, 0x26]

/-- Mode `Passive` over a tape, the last tact 100. -/
def idle (tape : List DataBlock) : State := { State.reset with cfg := toy tape, clk := { last := 100 } }

/-- A Load session over a tape, begun at tact 1000. -/
def loading (tape : List DataBlock) : State :=
  { idle tape with clk := { last := 1000 }, m := .load (seqStart (toy tape) 1000).1 (seqStart (toy tape) 1000).2 }

/-- A Save session with the given registers. -/
def saving (cap : CapState) : State :=
  { idle [] with clk := { last := 1000 }, m := .save cap { fileCreated := decide (1 ≤ cap.blockCount) } }

/-- The decoder in a phase after four pilot pulses, the last edge at tact 1000. -/
def at_ (phase : CapPhase) : CapState := { capFresh 1000 with phase := phase, pilotCount := 4 }

/-- The session an operation leaves. -/
def sessionOf : Outcome → Option Session
  | .next s => some s.m
  | .fault _ => none
  | .refused _ => none

/-- The decoder's registers an operation leaves. -/
def capOf (o : Outcome) : Option CapState :=
  match sessionOf o with
  | some (.save cap _) => some cap
  | _ => none

/-- The result an operation returns. -/
def resultOf : Outcome → Option OpResult
  | .next s => s.result
  | .fault _ => none
  | .refused _ => none

/-- The events of the streams after an operation. -/
def eventsOf : Outcome → List OutputEvent
  | .next s => s.events
  | .fault _ => []
  | .refused _ => []

/-- Why an operation is refused. -/
def refusalOf : Outcome → Option Refusal
  | .next _ => none
  | .fault _ => none
  | .refused r => some r

/-- The operation a word decodes to, when it takes all its bits. -/
def decoded (c : Config) (bits : List Nat) : Option Instr :=
  match decode c (bits.map (· == 1)) with
  | .ok (i, []) => some i
  | _ => none

/-- Why a word is no operation word. -/
def decodeErrorOf (c : Config) (bits : List Nat) : Option DecodeError :=
  match decode c (bits.map (· == 1)) with
  | .ok _ => none
  | .error e => some e

/-! ## WellFormed: an ill-formed term for each check -/

theorem test_wf_fetch_pc : Instr.wellFormed (toy []) (.fetch 0x10000 0) = false := by decide
theorem test_wf_fetch_tact : Instr.wellFormed small (.fetch 15 16) = false := by decide
theorem test_wf_earrd : Instr.wellFormed small (.earrd 16) = false := by decide
theorem test_wf_micwr : Instr.wellFormed small (.micwr 16 true) = false := by decide
theorem test_wf_engNew : Instr.wellFormed small (.engNew 16 0) = false ∧ Instr.wellFormed small (.engNew 0 16) = false := by
  decide
theorem test_wf_engine_and_sequencer : Instr.wellFormed small (.engSignalat 16) = false ∧
    Instr.wellFormed small (.seqInitplay 16) = false ∧ Instr.wellFormed small (.seqGetearbit 16) = false := by decide
theorem test_wf_capture : Instr.wellFormed small (.capInit 16) = false ∧
    Instr.wellFormed small (.capClassify 16) = false ∧ Instr.wellFormed small (.capOnedge 16 false) = false ∧
    Instr.wellFormed small (.capSilent 16) = false := by decide
theorem test_wf_setName_length : Instr.wellFormed small (.setName (List.replicate 16 'A')) = false := by decide
theorem test_wf_setName_character : Instr.wellFormed small (.setName ['Ā']) = false := by
  simp [Instr.wellFormed, NameFits]
theorem test_wf_appendBlock : Instr.wellFormed small (.appendBlock { B0 with payload := List.replicate 16 0 }) = false ∧
    Instr.wellFormed small (.appendBlock { B0 with pilotPulseCount := 16 }) = false ∧
    Instr.wellFormed small (.appendBlock { B0 with pauseAfterMs := 16 }) = false := by decide
theorem test_wf_accepts : Instr.wellFormed small (.fetch 15 15) = true ∧
    Instr.wellFormed small (.appendBlock B0) = true := by decide

/-! ## Decode: the words of R56's table, written out bit by bit -/

theorem test_decode_RESET : decoded small [0,0,0,0, 0,0,0,0] = some .reset := by decide
theorem test_decode_FETCH : decoded small [0,0,0,0, 0,0,0,1, 1,0,1,0, 0,1,1,0] = some (.fetch 10 6) := by decide
theorem test_decode_EARRD : decoded small [0,0,0,0, 0,0,1,0, 1,0,0,1] = some (.earrd 9) := by decide
theorem test_decode_MICWR : decoded small [0,0,0,0, 0,0,1,1, 1,1,0,0, 1] = some (.micwr 12 high) := by decide
theorem test_decode_ENG_NEW : decoded small [0,0,0,1, 0,0,0,0, 0,0,1,0, 0,1,0,1] = some (.engNew 2 5) := by decide
theorem test_decode_ENG_SIGNALAT : decoded small [0,0,0,1, 0,0,0,1, 1,0,1,1] = some (.engSignalat 11) := by decide
theorem test_decode_SEQ_INITPLAY : decoded small [0,0,0,1, 0,0,1,0, 0,0,1,1] = some (.seqInitplay 3) := by decide
theorem test_decode_SEQ_GETEARBIT : decoded small [0,0,0,1, 0,0,1,1, 0,1,1,1] = some (.seqGetearbit 7) := by decide
theorem test_decode_CAP_INIT : decoded small [0,0,0,1, 1,0,0,0, 1,0,0,0] = some (.capInit 8) := by decide
theorem test_decode_CAP_CLASSIFY : decoded small [0,0,0,1, 1,0,0,1, 1,1,0,1] = some (.capClassify 13) := by decide
theorem test_decode_CAP_ONEDGE : decoded small [0,0,0,1, 1,0,1,0, 0,1,0,0, 0] = some (.capOnedge 4 low) := by decide
theorem test_decode_CAP_COMPLETE : decoded small [0,0,0,1, 1,0,1,1] = some .capComplete := by decide
theorem test_decode_CAP_SILENT : decoded small [0,0,0,1, 1,1,0,0, 1,1,1,0] = some (.capSilent 14) := by decide
theorem test_decode_notifications :
    decoded small [0,0,1,0, 0,0,0,0] = some .enteredLoad ∧ decoded small [0,0,1,0, 0,0,0,1] = some .leftLoad ∧
    decoded small [0,0,1,0, 0,0,1,0] = some .enteredSave ∧ decoded small [0,0,1,0, 0,0,1,1] = some .leftSave := by decide
theorem test_decode_createFile_finalize :
    decoded small [0,0,1,0, 1,0,0,0] = some .createFile ∧ decoded small [0,0,1,0, 1,0,1,1] = some .finalize := by decide
theorem test_decode_setName : decoded small [0,0,1,0, 1,0,0,1, 0,0,1,0, 0,1,0,0,0,0,0,1, 0,1,1,0,0,0,1,0] =
    some (.setName ['A', 'b']) := by decide
theorem test_decode_appendBlock :
    decoded small [0,0,1,0, 1,0,1,0, 0,1,1, 0,0,0,1, 1,0,0,1,0,0,0,0, 0,0,1,1, 1, 0,0,0,1] =
      some (.appendBlock ⟨.description, [0x90], 3, true, 1⟩) := by decide
theorem test_decode_pulse_symbols :
    decoded small [0,0,1,1, 0,0,0,0] = some .pilot ∧ decoded small [0,0,1,1, 0,0,0,1] = some .sync1 ∧
    decoded small [0,0,1,1, 0,0,1,0] = some .sync2 ∧ decoded small [0,0,1,1, 0,0,1,1] = some .bit0 ∧
    decoded small [0,0,1,1, 0,1,0,0] = some .bit1 ∧ decoded small [0,0,1,1, 0,1,0,1] = some .term ∧
    decoded small [0,0,1,1, 0,1,1,0] = some .pause := by decide

/-- V-E7: 0x04, 0x17, 0x37 and 0xFF name nothing. -/
theorem test_decode_names_nothing :
    decodeErrorOf small [0,0,0,0, 0,1,0,0] = some (.unknownOperation 0x04) ∧
    decodeErrorOf small [0,0,0,1, 0,1,1,1] = some (.unknownOperation 0x17) ∧
    decodeErrorOf small [0,0,1,1, 0,1,1,1] = some (.unknownOperation 0x37) ∧
    decodeErrorOf small [1,1,1,1, 1,1,1,1] = some (.unknownOperation 0xFF) := by decide
theorem test_decode_truncated : decodeErrorOf small [0,0,0,0, 0,0,1,0, 1,0,0] = some .truncatedWord := by decide
theorem test_decode_reserved_kind :
    decodeErrorOf small [0,0,1,0, 1,0,1,0, 1,0,1, 0,0,0,0] = some (.reservedKindCode 5) := by decide

/-- The table's numbering: FETCH with operands of zeros, run as the first operation after reset. -/
theorem test_table_word : decodeTableWord 8 0x01 = some (.fetch 0 0) ∧
    sessionOf (step (State.reset.withFetchWord 8 0x01)) = some .passive := by decide +kernel
theorem test_table_word_appendBlock : decodeTableWord 8 0x2A = some (.appendBlock ⟨.standardData, [], 0, false, 0⟩) := by
  decide +kernel

/-! ## Format H -/

/-- V-M10: RESET in mid-session. -/
theorem test_RESET : sessionOf (exec .reset (saving (at_ .data))) = some .passive ∧
    eventsOf (exec .reset (saving (at_ .data))) = [] := by decide
/-- R88's example. -/
theorem test_FETCH_enters_Load : sessionOf (exec (.fetch 0x056C 1000) (idle [B0])) =
    some (.load ⟨0, false⟩ ⟨0, 1000, .notStarted, high⟩) := by decide
/-- R90's example, one tact past the silence threshold and on it. -/
theorem test_FETCH_silence : eventsOf (exec (.fetch 0x1234 1501) (saving (at_ .pilot))) = [.leftSave] ∧
    eventsOf (exec (.fetch 0x1234 1500) (saving (at_ .pilot))) = [] := by decide
/-- R91's example at 1060: the sync1 pulse is low. -/
theorem test_EARRD_Load : resultOf (exec (.earrd 1060) (loading [B0])) = some (.level low) := by decide +kernel
/-- V-M7: in `Save` EARRD is high. -/
theorem test_EARRD_Save : resultOf (exec (.earrd 5388) (saving (at_ .data))) = some (.level high) := by decide
/-- R92's example: a write that repeats the level does nothing, another is an edge. -/
theorem test_MICWR : capOf (exec (.micwr 1020 high) (saving (at_ .pilot))) = some (at_ .pilot) ∧
    capOf (exec (.micwr 1020 low) (saving (at_ .pilot))) =
      some { at_ .pilot with pilotCount := 5, lastEdgeTact := 1020, micLevel := low } := by decide
/-- V-M11. -/
theorem test_MICWR_decreasing : refusalOf (exec (.micwr 0 high) (idle [])) = some .tactDecreasing := by decide

/-! ## Format C -/

/-- R60's example. -/
theorem test_ENG_NEW : sessionOf (exec (.engNew 0 1000) (loading [B0])) =
    some (.load ⟨0, false⟩ ⟨0, 1000, .notStarted, high⟩) := by decide
/-- R60 gives all three writes for an index outside the tape too. -/
theorem test_ENG_NEW_outside : sessionOf (exec (.engNew 9 1000) (loading [B0])) =
    some (.load ⟨0, false⟩ ⟨9, 1000, .notStarted, high⟩) := by decide
/-- V-G3: the start of the pause, one tact after the terminator. -/
theorem test_ENG_SIGNALAT : resultOf (exec (.engSignalat 1329) (loading [B0])) = some (.level low) ∧
    sessionOf (exec (.engSignalat 1330) (loading [B0])) = some (.load ⟨0, false⟩ ⟨0, 1000, .pause, high⟩) := by
  decide +kernel
/-- V-G3: a tact before the block's start. -/
theorem test_ENG_SIGNALAT_refused : refusalOf (exec (.engSignalat 999) (loading [B0])) = some .tactBeforeBlockStart := by
  decide
/-- V-Q4. -/
theorem test_SEQ_INITPLAY : sessionOf (exec (.seqInitplay 7) (loading [])) =
    some (.load ⟨0, true⟩ ⟨0, 7, .notStarted, high⟩) := by decide
/-- V-Q1 at 1430: one query passes `B0` and `DESC` and starts `B1`. -/
theorem test_SEQ_GETEARBIT : sessionOf (exec (.seqGetearbit 1430) (loading [B0, DESC, B1])) =
    some (.load ⟨2, false⟩ ⟨2, 1430, .pilot, low⟩) := by decide +kernel
/-- V-Q2 at 99999. -/
theorem test_SEQ_GETEARBIT_end : sessionOf (exec (.seqGetearbit 99999) (loading [B0, DESC, B1])) =
    some (.load ⟨2, true⟩ ⟨2, 1430, .completed, high⟩) := by decide +kernel
/-- R72's example. -/
theorem test_CAP_INIT : capOf (exec (.capInit 5000) (saving (at_ .data))) =
    some ⟨.none, 0, 0, 0x00, .noPulse, [], 0, 5000, high⟩ := by decide
/-- V-C1 at the ends of the pilot window. -/
theorem test_CAP_CLASSIFY : resultOf (exec (.capClassify 21) (idle [])) = some (.pulseClass .pilot) ∧
    resultOf (exec (.capClassify 22) (idle [])) = some (.pulseClass .other) := by decide
/-- V-D2: sync1 after three pilot pulses is an error, after four it is accepted. -/
theorem test_CAP_ONEDGE_sync1 :
    capOf (exec (.capOnedge 1006 low) (saving { at_ .pilot with pilotCount := 3 })) =
      some { at_ .error with pilotCount := 3, lastEdgeTact := 1006 } ∧
    capOf (exec (.capOnedge 1006 low) (saving (at_ .pilot))) = some { at_ .sync1 with lastEdgeTact := 1006 } := by
  decide
/-- V-D5: the second half of a 1 bit, within the tolerance. -/
theorem test_CAP_ONEDGE_bit : capOf (exec (.capOnedge 1023 low) (saving { at_ .data with prevPulse := .bit1 })) =
    some { at_ .data with byteAcc := 0x80, bitOffset := 1, lastEdgeTact := 1023 } := by decide
/-- V-S6: a header-shaped first block suggests its name. -/
theorem test_CAP_COMPLETE : eventsOf (exec .capComplete (saving { at_ .data with buffer := HDR, pilotCount := 9 })) =
    [.createFile, .setName ['B', 'o', 'r', 'd', 'e', 'r'], .appendBlock ⟨.standardData, HDR, 9, true, 1⟩] := by
  decide +kernel
/-- V-E6: a pilot count of 7 is not nearer to the header count. -/
theorem test_CAP_COMPLETE_count : eventsOf (exec .capComplete (saving { at_ .data with pilotCount := 7, blockCount := 1 })) =
    [.appendBlock ⟨.standardData, [], 7, false, 1⟩] := by decide
/-- V-D10. -/
theorem test_CAP_SILENT : resultOf (exec (.capSilent 1500) (saving (at_ .data))) = some (.silent false) ∧
    resultOf (exec (.capSilent 1501) (saving (at_ .data))) = some (.silent true) := by decide
/-- Below the last edge the answer is open; the session is left as it is. -/
theorem test_CAP_SILENT_open : sessionOf (exec (.capSilent 999) (saving (at_ .data))) = some (saving (at_ .data)).m := by
  rfl

/-! ## Formats O and P -/

theorem test_notifications : eventsOf (exec .enteredLoad (idle [])) = [.enteredLoad] ∧
    eventsOf (exec .leftLoad (idle [])) = [.leftLoad] ∧ eventsOf (exec .enteredSave (idle [])) = [.enteredSave] ∧
    eventsOf (exec .leftSave (idle [])) = [.leftSave] := by decide
theorem test_sink_calls : eventsOf (exec .createFile (idle [])) = [.createFile] ∧
    eventsOf (exec (.setName ['A']) (idle [])) = [.setName ['A']] ∧
    eventsOf (exec (.appendBlock B0) (idle [])) = [.appendBlock B0] ∧
    eventsOf (exec .finalize (idle [])) = [.finalize] := by decide
/-- R44's table under TOY. -/
theorem test_pulse_symbols :
    resultOf (exec .pilot (idle [])) = some (.pulse ⟨.pilot, 20, .alternating, some .pilot⟩) ∧
    resultOf (exec .sync1 (idle [])) = some (.pulse ⟨.sync1, 6, .fixed low, some .sync1⟩) ∧
    resultOf (exec .sync2 (idle [])) = some (.pulse ⟨.sync2, 9, .fixed high, some .sync2⟩) ∧
    resultOf (exec .bit0 (idle [])) = some (.pulse ⟨.bit0, 12, .lowThenHigh, some .bit0⟩) ∧
    resultOf (exec .bit1 (idle [])) = some (.pulse ⟨.bit1, 24, .lowThenHigh, some .bit1⟩) ∧
    resultOf (exec .term (idle [])) = some (.pulse ⟨.term, 15, .fixed low, some .term⟩) := by decide
/-- V-E1: the pause of `B0` lasts 100 tacts. -/
theorem test_PAUSE : resultOf (exec .pause (loading [B0])) = some (.pulse ⟨.pause, 100, .fixed high, none⟩) := by
  decide

/-! ## The line code -/

/-- V-E1: the frame of `B0`. -/
theorem test_frame : frameDurations (toy []) B0 =
    [20, 20, 20, 6, 9] ++ [24, 24, 12, 12, 12, 12, 24, 24] ++ [12, 12, 12, 12, 12, 12, 12, 12, 15] := by decide
/-- V-E3: the pause conversion rounds down. -/
theorem test_pause_rounds : pauseTacts { toy [] with clockHz := 3546900 } B0 = 3546 := by decide
/-- V-E5. -/
theorem test_headerShaped : headerShaped (toy []) HDR = true ∧ headerShaped (toy []) [] = false ∧
    headerShaped (toy []) (0xFF :: HDR.tail) = false := by decide
/-- R62 at V-G1's tact 99: the loop shows the second half of bit 7 of byte 0. -/
theorem test_engine_loop : (loopQuery (toy []) B0 99 (loopInit B0 0)).2 = .data ∧
    (loopQuery (toy []) B0 99 (loopInit B0 0)).1 = ⟨6, 99, high⟩ ∧ LoopRegs.bitMask B0 ⟨6, 99, high⟩ = 0x80 := by decide

/-! ## Sequences and text (R57, R58) -/

theorem test_edges : edges 5000 high [20, 6] = [.micwr 5000 high, .micwr 5020 low, .micwr 5026 high] := by decide
theorem test_earscan : earscan 3 5 = [.earrd 3, .earrd 4, .earrd 5] := by decide
theorem test_traceText : traceText (toy []) (.fetch 0x056C 1000) = some "FETCH pc=0x056C t=1000".toList ∧
    traceText (toy []) (.micwr 5037 low) = some "MICWR t=5037 lvl=0".toList ∧
    resultText (some (.level high)) = " -> 1".toList := by decide +kernel
theorem test_admissible : admissible [.fetch 0 5, .earrd 5, .micwr 6 low] = true ∧
    admissible [.earrd 6, .earrd 5] = false := by decide

/-! ## Witnesses: the hypotheses of each statement hold together, clause by clause, at a boundary -/

/-- A Save session whose registers meet the invariant. -/
def freshSave : State := saving (capFresh 1000)

theorem toy_wf : (toy []).WF := by decide
theorem toy_tape_wf : (toy [B0, DESC, B1]).WF := by decide
theorem loading_inv (tape : List DataBlock) : (loading tape).Inv := loadInv_start (toy tape) 1000
theorem loading_hostInv (tape : List DataBlock) : (loading tape).HostInv := ⟨Nat.le_refl _, rfl⟩
theorem freshSave_inv : freshSave.Inv := saveInv_fresh (toy []) 1000

theorem witness_OperationWordRoundTrip : Instr.wellFormed (toy []) (.fetch (2 ^ 16 - 1) (2 ^ 64 - 1)) = true ∧
    Instr.wellFormed small (.appendBlock B0) = true ∧ Instr.wellFormed small (.setName ['A']) = true :=
  ⟨by decide +kernel, by decide, by simp [Instr.wellFormed, NameFits, small, toy]⟩
theorem witness_DecodedBitsAreTheWord : decode small [false, false, false, true, true, false, true, true, true] =
    .ok (.capComplete, [true]) := by rfl
theorem witness_SpecWordsDecode : (toy []).addrBits = 16 ∧ (toy []).tactBits = 64 := by decide
theorem witness_UnassignedNumbersRefused :
    (∀ n ∈ [0x04, 0x0F, 0x14, 0x17, 0x1D, 0x1F, 0x24, 0x27, 0x2C, 0x2F, 0x37, 0xFF],
      0x04 ≤ n ∧ n ≤ 0x0F ∨ 0x14 ≤ n ∧ n ≤ 0x17 ∨ 0x1D ≤ n ∧ n ≤ 0x1F ∨ 0x24 ≤ n ∧ n ≤ 0x27 ∨
        0x2C ≤ n ∧ n ≤ 0x2F ∨ 0x37 ≤ n ∧ n ≤ 0xFF) ∧
    (toy []).ParametersWF ∧ { idle [] with input := natToBits 8 0x04 }.input = natToBits 8 0x04 ++ [] := by decide
theorem witness_StepPerformsTheRequest :
    (idle []).cfg.ParametersWF ∧ Instr.wellFormed (idle []).cfg (.earrd 100) = true ∧
    { idle [] with input := encode (toy []) (.earrd 100) }.input = encode (idle []).cfg (.earrd 100) ++ [] := by
  decide +kernel
theorem witness_StepIdlesOrRefusesTheConfiguration : (idle []).input = [] ∧ ([false] : List Bool) ≠ [] ∧
    ¬ { toy [] with tolerance := 6 }.ParametersWF := by decide
theorem witness_DecreasingTactRefused : 99 < (idle []).clk.last := by decide
theorem witness_FetchInPassive : (idle []).cfg.WF ∧ (idle []).m = .passive ∧ (idle []).clk.last ≤ 100 ∧
    0x056C = (idle []).cfg.loadEntryAddr ∧ 0x04C2 = (idle []).cfg.saveEntryAddr ∧
    0x0008 ≠ (idle []).cfg.loadEntryAddr ∧ 0x0008 ≠ (idle []).cfg.saveEntryAddr ∧ (idle []).cfg.tape = [] := by decide
theorem witness_FetchInPassive_entering : ∃ t, exec (.fetch 0x056C 100) (idle []) = .next t ∧ t.mode ≠ .passive :=
  ⟨_, rfl, by decide⟩
theorem witness_FetchInLoad : (loading [B0]).m = .load ⟨0, false⟩ ⟨0, 1000, .notStarted, high⟩ ∧
    (loading [B0]).clk.last ≤ 1000 ∧ 0x0008 = (loading [B0]).cfg.errorHandlerAddr ∧
    0x056C ≠ (loading [B0]).cfg.errorHandlerAddr := by decide
theorem witness_FetchInLoad_endOfTape : (loading []).m = .load ⟨0, true⟩ ⟨0, 1000, .notStarted, high⟩ := by decide
theorem witness_FetchInSave : freshSave.m = .save (capFresh 1000) sinkFresh ∧ freshSave.clk.last ≤ 1000 ∧
    (capFresh 1000).lastEdgeTact ≤ 1000 ∧ 0x0008 = freshSave.cfg.errorHandlerAddr ∧
    (capFresh 1000).lastEdgeTact + freshSave.cfg.silenceThreshold < 1501 ∧
    0x1234 ≠ freshSave.cfg.errorHandlerAddr ∧ (capFresh 1000).phase ≠ .error ∧
    1500 ≤ (capFresh 1000).lastEdgeTact + freshSave.cfg.silenceThreshold ∧ (at_ .error).phase = .error := by decide
theorem witness_FetchInSave_belowTheEdge : { freshSave with clk := ⟨900⟩ }.m = .save (capFresh 1000) sinkFresh ∧
    { freshSave with clk := ⟨900⟩ }.clk.last ≤ 999 ∧ 0x1234 ≠ freshSave.cfg.errorHandlerAddr ∧
    (capFresh 1000).phase ≠ .error ∧ 999 < (capFresh 1000).lastEdgeTact := by decide
theorem witness_EarrdByMode : (idle []).clk.last ≤ 100 ∧ (idle []).mode ≠ .load ∧ freshSave.mode ≠ .load ∧
    (loading [B0]).mode = .load ∧ (loading [B0]).clk.last ≤ 1000 := by decide
theorem witness_MicwrByMode : (loading []).clk.last ≤ 1000 ∧ (loading []).mode ≠ .save ∧
    freshSave.m = .save (capFresh 1000) sinkFresh ∧ freshSave.clk.last ≤ 1000 ∧ high = (capFresh 1000).micLevel ∧
    low ≠ (capFresh 1000).micLevel := by decide
theorem witness_HostOperationsComplete : (loading [B0, DESC, B1]).cfg.WF ∧ (loading [B0, DESC, B1]).Inv ∧
    (loading [B0, DESC, B1]).HostInv ∧ isHostOp (.earrd 1000) = true ∧
    ∀ tact, timedTact (.earrd 1000) = some tact → (loading [B0, DESC, B1]).clk.last ≤ tact :=
  ⟨toy_tape_wf, loading_inv _, loading_hostInv _, rfl, fun _ h => by cases h; decide⟩
theorem witness_HostOperationsComplete_Save : freshSave.cfg.WF ∧ freshSave.Inv ∧ freshSave.HostInv :=
  ⟨toy_wf, freshSave_inv, Nat.le_refl 1000⟩

theorem witness_EngNewGivesAFreshInstance : (loading [B0]).m = .load ⟨0, false⟩ ⟨0, 1000, .notStarted, high⟩ := by
  decide
theorem witness_SignalatIsDefinedForEveryBlock :
    (loading [B0]).m = .load ⟨0, false⟩ ⟨0, 1000, .notStarted, high⟩ ∧ (loading [B0]).cfg.tape[0]? = some B0 ∧
    B0.kind = .standardData ∧ 1000 ≤ 1430 ∧ totTacts (toy [B0]) B0 ≤ 1430 - 1000 ∧
    sigTacts (toy [B0]) B0 ≤ 1330 - 1000 ∧ 1330 - 1000 < totTacts (toy [B0]) B0 ∧
    1329 - 1000 < sigTacts (toy [B0]) B0 := by decide
theorem witness_PhaseNeverGoesBack : (loading [B0]).m = .load ⟨0, false⟩ ⟨0, 1000, .notStarted, high⟩ ∧
    (loading [B0]).cfg.tape[0]? = some B0 ∧ B0.kind = .standardData ∧
    (1000 :: ([1000, 1020] ++ [1075, 1430])).Pairwise (· ≤ ·) := by decide
theorem witness_CompletedIsTerminal : ∃ s1 seq eng1,
    (loading [B0]).cfg.tape[0]? = some B0 ∧ exec (.engSignalat 1430) (loading [B0]) = .next s1 ∧
      s1.m = .load seq eng1 ∧ eng1.phase = .completed :=
  ⟨_, _, _, rfl, rfl, rfl, by decide +kernel⟩
theorem witness_LoopAgreesWithClosedForm : (0 :: ([20, 20, 75] ++ [99])).Pairwise (· ≤ ·) ∧
    (loopQuery (toy []) B0 99 (loopAfter (toy []) B0 0 [20, 20, 75])).2 = .data := by decide

theorem witness_InitplayBeginsAtBlockZero : (loading []).mode = .load := by decide
theorem witness_GetearbitCompletes : (loading [B0, DESC, B1]).m = .load ⟨0, false⟩ ⟨0, 1000, .notStarted, high⟩ ∧
    (loading [B0, DESC, B1]).cfg.TapeKindsSpecified ∧
    LoadInv (loading [B0, DESC, B1]).cfg ⟨0, false⟩ ⟨0, 1000, .notStarted, high⟩ ∧ 1000 ≤ 1000 :=
  ⟨rfl, toy_tape_wf.2, loading_inv [B0, DESC, B1], Nat.le_refl _⟩
theorem witness_GetearbitCompletes_endOfTape : LoadInv (loading []).cfg ⟨0, true⟩ ⟨0, 1000, .notStarted, high⟩ :=
  loading_inv []
theorem witness_UnspecifiedKindRefused :
    (loading [{ B0 with kind := .pureTone }]).m = .load ⟨0, false⟩ ⟨0, 1000, .notStarted, high⟩ ∧
    (loading [{ B0 with kind := .pureTone }]).cfg.tape[0]? = some { B0 with kind := .pureTone } ∧
    BlockKind.pureTone ≠ .standardData ∧ BlockKind.pureTone ≠ .description := by decide
theorem witness_UnspecifiedKindRefused_later :
    (loading [B0, DESC, { B0 with kind := .pureTone }]).m = .load ⟨0, false⟩ ⟨0, 1000, .notStarted, high⟩ ∧
    (loading [B0, DESC, { B0 with kind := .pureTone }]).cfg.tape[2]? = some { B0 with kind := .pureTone } ∧
    B0.kind = .standardData ∧ DESC.kind = .description ∧
    slotStart (loading [B0, DESC, { B0 with kind := .pureTone }]).cfg 1000 (0 + 1) ≤
      1430 + slotStart (loading [B0, DESC, { B0 with kind := .pureTone }]).cfg 0 0 := by decide
theorem witness_TapeSignalIsAFunctionOfTime : (loading [B0, DESC, B1]).cfg.WF ∧ (loading [B0, DESC, B1]).mode = .load ∧
    (1000 :: ([1000, 1429] ++ [1430])).Pairwise (· ≤ ·) ∧
    SlotHolds (toy [B0, DESC, B1]) 1000 1429 0 B0 ∧ SlotHolds (toy [B0, DESC, B1]) 1000 1430 2 B1 := by
  refine ⟨toy_tape_wf, by decide, by decide, ?_, ?_⟩ <;> (unfold SlotHolds; decide)
theorem witness_PlaybackOnlyMovesForward :
    (∃ t, exec (.seqGetearbit 1430) (loading [B0, DESC, B1]) = .next t) ∧
    ∃ t, exec (.earrd 1430) (loading [B0, DESC, B1]) = .next t := ⟨⟨_, rfl⟩, ⟨_, rfl⟩⟩

theorem witness_CapInitCreatesTheSession : freshSave.mode = .save := by decide
theorem witness_ClassifyByWindow : (idle []).cfg.WF := toy_wf
theorem witness_EdgeInPhaseNone : (saving (at_ .none)).m = .save (at_ .none) sinkFresh ∧ (at_ .none).phase = .none ∧
    (at_ .none).lastEdgeTact ≤ 1000 := by decide
theorem witness_EdgeInPhasePilot : (saving (at_ .pilot)).m = .save (at_ .pilot) sinkFresh ∧
    (at_ .pilot).phase = .pilot ∧ classify (toy []) (1020 - 1000) = .pilot ∧ classify (toy []) (1006 - 1000) = .sync1 ∧
    (toy []).minPilotCount ≤ (at_ .pilot).pilotCount ∧ 3 < (toy []).minPilotCount ∧
    classify (toy []) (1000 - 1000) ≠ .pilot ∧ classify (toy []) (1000 - 1000) ≠ .sync1 := by decide
theorem witness_EdgeInPhaseSync1 : (saving (at_ .sync1)).m = .save (at_ .sync1) sinkFresh ∧
    (at_ .sync1).phase = .sync1 ∧ (at_ .sync1).lastEdgeTact ≤ 1000 := by decide
theorem witness_HalfPulsesFormBits : (saving (at_ .data)).m = .save (at_ .data) sinkFresh ∧ (at_ .data).phase = .data ∧
    classify (toy []) (1024 - 1000) = classOf true ∧ classify (toy []) (1012 - 1000) = classOf false ∧
    (at_ .data).bitOffset < 8 ∧ (at_ .data).prevPulse = .noPulse ∧
    { at_ .data with prevPulse := .bit1, bitOffset := 6 }.prevPulse = halfOf true ∧
    { at_ .data with prevPulse := .bit1, bitOffset := 6 }.bitOffset < 7 ∧
    { at_ .sync2 with prevPulse := .bit0, bitOffset := 7 }.prevPulse = halfOf false ∧
    { at_ .sync2 with prevPulse := .bit0, bitOffset := 7 }.bitOffset = 7 ∧
    { at_ .data with prevPulse := .bit0 }.prevPulse = halfOf (!true) := by decide
theorem witness_TerminatorDeliversTheBlock : (saving (at_ .sync2)).m = .save (at_ .sync2) sinkFresh ∧
    (at_ .sync2).phase = .sync2 ∧ (at_ .data).phase = .data ∧ classify (toy []) (1015 - 1000) = .term ∧
    (at_ .sync2).bitOffset = 0 ∧ (at_ .sync2).prevPulse = .noPulse ∧ (at_ .sync2).blockCount = 0 ∧
    { at_ .data with blockCount := 1 }.blockCount ≠ 0 := by decide
theorem witness_ForeignPulseInDataIsAnError : (saving (at_ .data)).m = .save (at_ .data) sinkFresh ∧
    classify (toy []) (1020 - 1000) ≠ .bit0 ∧ classify (toy []) (1020 - 1000) ≠ .bit1 ∧
    ¬ (classify (toy []) (1020 - 1000) = .term ∧ (at_ .data).bitOffset = 0 ∧ (at_ .data).prevPulse = .noPulse) ∧
    ¬ (classify (toy []) (1015 - 1000) = .term ∧ { at_ .data with bitOffset := 3 }.bitOffset = 0) ∧
    ¬ (classify (toy []) (1015 - 1000) = .term ∧ { at_ .data with prevPulse := .bit0 }.prevPulse = .noPulse) := by decide
theorem witness_ErrorPhaseAbsorbsEdges : (saving (at_ .error)).m = .save (at_ .error) sinkFresh ∧
    (at_ .error).phase = .error := by decide
theorem witness_IllegalPulseIsAnError : (saving (at_ .pilot)).m = .save (at_ .pilot) sinkFresh ∧
    (at_ .pilot).lastEdgeTact ≤ 1000 ∧ (at_ .pilot).phase ≠ .none ∧ (at_ .pilot).phase ≠ .error ∧
    (at_ .none).phase = .none ∧ classify (toy []) (1000 - 1000) ≠ .pilot ∧ (at_ .error).phase = .error := by decide
theorem witness_CaptureErrorChangesOnlyThePhase : ∃ t cap', (at_ .pilot).phase ≠ .error ∧
    exec (.capOnedge 1000 low) (saving (at_ .pilot)) = .next t ∧ t.m = .save cap' sinkFresh ∧ cap'.phase = .error :=
  ⟨_, _, by decide, rfl, rfl, by decide⟩
theorem witness_SilenceIsStrict : (saving (at_ .data)).m = .save (at_ .data) sinkFresh ∧
    (at_ .data).lastEdgeTact ≤ 1000 ∧ 999 < (at_ .data).lastEdgeTact := by decide
theorem ready_sync2 : ReadyForByte (at_ .sync2) := ⟨.inl rfl, rfl, rfl, rfl⟩
theorem witness_DataPulsesAreReassembled : (saving (at_ .sync2)).cfg.WF ∧
    (saving (at_ .sync2)).m = .save (at_ .sync2) sinkFresh ∧ ReadyForByte (at_ .sync2) := ⟨toy_wf, rfl, ready_sync2⟩
theorem exact_edges (t0 : Nat) (c : Config) (b : DataBlock) (k d : Nat) (h : (frameDurations c b)[k]? = some d) :
    t0 + pulseStart c b k ≤ t0 + pulseStart c b (k + 1) ∧
      Matches c (t0 + pulseStart c b (k + 1) - (t0 + pulseStart c b k)) d := by
  rw [frameDurations_getElem?] at h
  obtain ⟨p, hp, rfl⟩ := Option.map_eq_some_iff.mp h
  rw [pulseStart_succ hp]
  unfold Matches
  omega
theorem witness_RoundTripLaw : freshSave.cfg.WF ∧ freshSave.mode = .save ∧ ValidStandard freshSave.cfg R5 ∧
    1 ≤ freshSave.cfg.minPilotCount ∧ 1000 ≤ 1000 + pulseStart freshSave.cfg R5 (firstEdge R5) ∧
    ∀ k d, firstEdge R5 ≤ k → (frameDurations freshSave.cfg R5)[k]? = some d →
      1000 + pulseStart freshSave.cfg R5 k ≤ 1000 + pulseStart freshSave.cfg R5 (k + 1) ∧
      Matches freshSave.cfg
        (1000 + pulseStart freshSave.cfg R5 (k + 1) - (1000 + pulseStart freshSave.cfg R5 k)) d :=
  ⟨toy_wf, rfl, by decide, by decide, Nat.le_add_right _ _, fun k d _ h => exact_edges 1000 _ _ k d h⟩
theorem witness_RoundTripLawAsWritten : freshSave.cfg.WF ∧ freshSave.mode = .save ∧ ValidStandard freshSave.cfg R5 ∧
    1000 ≤ 1000 := ⟨toy_wf, rfl, by decide, Nat.le_refl _⟩
theorem witness_NoPartialBlockDelivered : ∃ t emitted,
    exec (.micwr 1015 low) (saving (at_ .sync2)) = .next t ∧ t.events = (saving (at_ .sync2)).events ++ emitted ∧
      .appendBlock ⟨.standardData, [], 4, false, 1⟩ ∈ emitted := ⟨_, _, rfl, rfl, by decide⟩

theorem witness_PauseAnswersTheWindow : (loading [B0]).m = .load ⟨0, false⟩ ⟨0, 1000, .notStarted, high⟩ ∧
    (loading [B0]).cfg.tape[0]? = some B0 ∧ B0.kind = .standardData := by decide
theorem witness_FrameByPulseNumber : (toy [B0]).tape[0]? = some B0 ∧ 2 < B0.pilotPulseCount ∧
    15 < 16 * B0.payload.length := by decide
theorem witness_PulseLevelsOfTheFrame : 1 ≤ B0.pilotPulseCount := by decide

theorem witness_EveryStepKeepsTheRegisterInvariant : ∃ t, (loading [B0]).Inv ∧
    step { loading [B0] with input := encode (toy [B0]) (.earrd 1060) } = .next t ∧ t.mode = .load :=
  ⟨_, loading_inv [B0], rfl, rfl⟩
theorem witness_OnlyFetchAndResetChangeTheMode :
    (∃ t, exec .reset freshSave = .next t ∧ t.mode ≠ freshSave.mode) ∧
    ∃ t, exec (.fetch 0x0008 1000) freshSave = .next t ∧ t.mode ≠ freshSave.mode :=
  ⟨⟨_, rfl, by decide⟩, ⟨_, rfl, by decide⟩⟩
theorem witness_FrameOfEveryOperation : (∃ t, exec (.earrd 1000) freshSave = .next t ∧ timedTact (.earrd 1000) = some 1000) ∧
    (∃ t, exec (.capClassify 20) freshSave = .next t ∧ timedTact (.capClassify 20) = none) ∧
    ∃ t, exec .pause freshSave = .next t ∧ 0x20 ≤ Instr.pause.number :=
  ⟨⟨_, rfl, rfl⟩, ⟨_, rfl, rfl⟩, ⟨_, rfl, by decide⟩⟩
theorem witness_HostOperationsKeepTheStreamsInOrder : ∃ t,
    { freshSave with events := [.enteredSave] }.Inv ∧ { freshSave with events := [.enteredSave] }.StreamsInOrder ∧
      (timedTact (.fetch 0x0008 1000)).isSome = true ∧
      exec (.fetch 0x0008 1000) { freshSave with events := [.enteredSave] } = .next t :=
  ⟨_, freshSave_inv, rfl, rfl, rfl⟩
/-- A session that a RESET cut short stands before the one that runs. -/
theorem witness_HostOperationsKeepTheStreamsInOrder_afterReset :
    1 ≤ { freshSave with events := [.enteredLoad, .enteredSave] }.events.length ∧
    { freshSave with events := [.enteredLoad, .enteredSave] }.StreamsInOrderSince 1 := ⟨by decide, rfl⟩
theorem witness_ReentryRestoresNothing : ∃ s1 s2, freshSave.mode ≠ .passive ∧
    exec (.fetch 0x0008 1000) freshSave = .next s1 ∧ s1.mode = .passive ∧
    exec (.fetch 0x04C2 1000) s1 = .next s2 := ⟨_, _, by decide, rfl, rfl, rfl⟩
theorem witness_ComponentOperationsNeedTheirSession : (idle []).mode ≠ .load ∧ (idle []).mode ≠ .save := by decide
theorem witness_TactBelowTheReferenceRefused : (loading [B0]).m = .load ⟨0, false⟩ ⟨0, 1000, .notStarted, high⟩ ∧
    (loading [B0]).cfg.tape[0]? = some B0 ∧ B0.kind = .standardData ∧ 999 < 1000 ∧
    (saving (at_ .data)).m = .save (at_ .data) sinkFresh ∧ 999 < (at_ .data).lastEdgeTact ∧
    (at_ .data).phase ≠ .error ∧ low ≠ (at_ .data).micLevel ∧
    { saving (at_ .data) with clk := ⟨900⟩ }.clk.last ≤ 999 ∧ { loading [B0] with clk := ⟨900⟩ }.clk.last ≤ 999 := by
  decide
theorem witness_TactBelowTheReferenceRefused_bound : ∀ b, (loading [B0]).cfg.tape[0]? = some b → b.kind = .standardData := by
  intro b h; cases h; rfl
theorem witness_BlockOutsideTheTapeStillAnswers :
    { loading [B0] with m := .load ⟨1, false⟩ ⟨1, 1000, .notStarted, high⟩ }.cfg.tape.length ≤ 1 ∧ 1000 ≤ 1000 := by decide
theorem witness_BlockWithoutAFrameRefused :
    { loading [B0, DESC] with m := .load ⟨0, false⟩ ⟨1, 1000, .notStarted, high⟩ }.cfg.tape[1]? = some DESC ∧
    DESC.kind ≠ .standardData ∧ (loading [B0, DESC]).cfg.tape[0]? = some B0 ∧ B0.kind = .standardData := by decide
theorem witness_NameIsTheTrimmedField : (toy []).HeaderShapeFits ∧ headerShaped (toy []) HDR = true := by decide

end Sys2Proof.Tests
end

