-- ==== Sys2Proof/Proofs/IllegalPulse.lean ====
section
/-! SUPPORT. O34: in which phases and by which pulses the capture decoder falls into phase `Error` (R54), one lemma per phase
of the machine, and the dispatch put together from them. -/

namespace Sys2Proof.Machine

/-! ## CAP.ONEDGE (R74) -/

theorem exec_capOnedge (tact : Nat) (level : Level) (s : State) :
    exec (.capOnedge tact level) s = execCapOnedge tact level s := rfl

/-- R74: in a Save session CAP.ONEDGE stores and emits what the decoder answers. -/
theorem exec_capOnedge_of_ok {s : State} {cap : CapState} {sink : SinkState} {tact : Nat} {a : CapAnswer}
    (level : Level) (hm : s.m = .save cap sink) (ha : capEdge s.cfg cap sink tact = .ok a) :
    exec (.capOnedge tact level) s = .next (s.finish (.save a.cap a.sink) a.emitted none) := by
  rw [exec_capOnedge, execCapOnedge, withSave_of _ hm, ha, orRefuse_ok]

/-! ## The legal pulses and the error, phase by phase (R54) -/

section Phases
variable {c : Config} {k : PulseClass} {cap : CapState}

@[simp] theorem raiseCaptureError_phase (e : CaptureErrorKind) (cap : CapState) :
    (raiseCaptureError e cap).phase = .error := rfl

@[simp] theorem quiet_cap (cap : CapState) (sink : SinkState) : (quiet cap sink).cap = cap := rfl

@[simp] theorem capDeliver_phase (c : Config) (cap : CapState) (sink : SinkState) :
    (capDeliver c cap sink).cap.phase = .none := by
  simp only [capDeliver]
  split <;> rfl

@[simp] theorem confirmBit_phase (bit : Bool) (cap : CapState) : (confirmBit bit cap).phase = .data := by
  simp only [confirmBit]
  split <;> rfl

/-- R75: in phase `None` every class but `Pilot` is ignored. -/
theorem edgeInNone_of_ne (hk : k ≠ .pilot) : edgeInNone k cap = cap := if_neg hk

/-- R75: in phase `None` no pulse is an error. -/
theorem edgeInNone_phase_ne_error (h : cap.phase = .none) : (edgeInNone k cap).phase ≠ .error := by
  unfold edgeInNone
  split_ifs <;> simp [h]

/-- R76: in phase `Pilot` a further pilot, and `Sync1` after enough pilots, are the pulses that raise no error. -/
theorem edgeInPilot_error_iff (h : cap.phase = .pilot) :
    (edgeInPilot c k cap).phase = .error ↔ legalPulse c cap k = false := by
  unfold edgeInPilot
  split_ifs with hpilot hsync
  · simp [legalPulse, h, hpilot]
  · obtain ⟨rfl, hcount⟩ := hsync
    simp [legalPulse, h, hcount]
  · have hlegal : legalPulse c cap k = false := by cases k <;> simp_all [legalPulse]
    simp [hlegal]

/-- R77: in phase `Sync1` only `Sync2` raises no error. -/
theorem edgeInSync1_error_iff (h : cap.phase = .sync1) :
    (edgeInSync1 k cap).phase = .error ↔ legalPulse c cap k = false := by
  unfold edgeInSync1
  split_ifs with hsync
  · simp [legalPulse, h, hsync]
  · have hlegal : legalPulse c cap k = false := by cases k <;> simp_all [legalPulse]
    simp [hlegal]

/-- R79: a half-pulse raises an error exactly when the other bit is pending. -/
theorem halfPulse_error_iff (half : PrevPulse) (bit : Bool) :
    (halfPulse half bit cap).phase = .error ↔ cap.bitPulseFits half = false := by
  unfold halfPulse CapState.bitPulseFits
  split_ifs with hnone hsame
  · simp [hnone]
  · simp [hsame]
  · simp [hnone, hsame]

/-- In phases `Sync2` and `Data` the same pulses are legal: a half-pulse that fits, and the terminator at a byte boundary. -/
theorem legalPulse_inData (h : cap.phase = .sync2 ∨ cap.phase = .data) :
    legalPulse c cap k =
      match k with
      | .bit0 => cap.bitPulseFits .bit0
      | .bit1 => cap.bitPulseFits .bit1
      | .term => cap.atByteBoundary
      | _ => false := by
  rcases h with h | h <;> cases k <;> simp [legalPulse, h]

/-- R78 to R81: in phases `Sync2` and `Data` a pulse raises an error exactly when it is not legal. -/
theorem edgeInData_error_iff (h : cap.phase = .sync2 ∨ cap.phase = .data) (sink : SinkState) :
    (edgeInData c k cap sink).cap.phase = .error ↔ legalPulse c cap k = false := by
  rw [legalPulse_inData h]
  cases k with
  | bit0 => exact halfPulse_error_iff .bit0 false
  | bit1 => exact halfPulse_error_iff .bit1 true
  | term =>
    simp only [edgeInData]
    split_ifs with hboundary <;> simp [hboundary]
  | pilot | sync1 | sync2 | other => simp [edgeInData]

/-- R54: outside phases `None` and `Error` a pulse leads to `Error` exactly when it is not legal. -/
theorem capPulse_error_iff (hnone : cap.phase ≠ .none) (herr : cap.phase ≠ .error) (sink : SinkState) :
    (capPulse c k cap sink).cap.phase = .error ↔ legalPulse c cap k = false := by
  unfold capPulse
  split
  case h_1 h => exact absurd h hnone
  case h_2 h => exact edgeInPilot_error_iff h
  case h_3 h => exact edgeInSync1_error_iff h
  case h_4 h => exact edgeInData_error_iff (.inl h) sink
  case h_5 h => exact edgeInData_error_iff (.inr h) sink
  case h_6 h => exact absurd h herr

/-- R75: in phase `None` the dispatch is `edgeInNone`, which delivers nothing. -/
theorem capPulse_inNone (h : cap.phase = .none) (sink : SinkState) :
    capPulse c k cap sink = quiet (edgeInNone k cap) sink := by
  simp [capPulse, h]

end Phases

/-- Settles O34: phase `Error` absorbs the edge; in every other phase the edge is its pulse, and the dispatch lemmas say
what the pulse does. -/
theorem illegalPulseIsAnError : Obligations.IllegalPulseIsAnError := by
  intro s cap sink tact level hm ht
  refine ⟨classify_other, ?_⟩
  by_cases herr : cap.phase = .error
  · refine ⟨_, _, _, exec_capOnedge_of_ok level hm (capEdge_error herr), rfl, ?_, ?_, ?_⟩
    · intro hnone
      simp [herr] at hnone
    · exact fun _ => ⟨rfl, rfl, List.append_nil _⟩
    · exact fun _ hne => absurd herr hne
  · refine ⟨_, _, _, exec_capOnedge_of_ok level hm (capEdge_of herr ht), rfl, ?_, ?_, ?_⟩
    · intro hnone
      rw [capPulse_withEdge, capPulse_inNone hnone]
      refine ⟨edgeInNone_phase_ne_error hnone, fun hk => ?_⟩
      rw [edgeInNone_of_ne hk]
      exact ⟨rfl, rfl, List.append_nil _⟩
    · exact fun h => absurd h herr
    · intro hnone _
      rw [capPulse_withEdge]
      exact capPulse_error_iff hnone herr sink

end Sys2Proof.Machine
end

section
/-! SUPPORT. O18: a completed engine answers every later query with its own registers, unchanged (R64). -/

namespace Sys2Proof.Machine

/-! ## ENG.SIGNALAT (R61) -/

theorem exec_engSignalat (tact : Nat) (s : State) : exec (.engSignalat tact) s = execEngSignalat tact s := rfl

/-- R61: in a Load session ENG.SIGNALAT stores the registers the engine query answers and returns their level. -/
theorem exec_engSignalat_of_ok {s : State} {seq : SeqState} {eng eng' : EngState} {tact : Nat}
    (hm : s.m = .load seq eng) (hq : engQuery s.cfg eng tact = .ok eng') :
    exec (.engSignalat tact) s = .next (s.finish (.load seq eng') [] (some (.level eng'.level))) := by
  rw [exec_engSignalat, execEngSignalat, withLoad_of _ hm, hq, orRefuse_ok]

/-- All ENG.SIGNALAT can answer next in a Load session. -/
theorem exec_engSignalat_next {s t : State} {seq : SeqState} {eng : EngState} {tact : Nat}
    (hm : s.m = .load seq eng) (h : exec (.engSignalat tact) s = .next t) :
    ∃ eng', engQuery s.cfg eng tact = .ok eng' ∧
      t = s.finish (.load seq eng') [] (some (.level eng'.level)) := by
  rw [exec_engSignalat, execEngSignalat, withLoad_of _ hm] at h
  obtain ⟨eng', hq, ht⟩ := orRefuse_next h
  cases ht
  exact ⟨eng', hq, rfl⟩

/-! ## The completed engine (R64) -/

/-- R61: a query that finds the block completed answers high. -/
theorem engQuery_completed_level {c : Config} {eng eng' : EngState} {tact : Nat}
    (hq : engQuery c eng tact = .ok eng') (hc : eng'.phase = .completed) : eng'.level = high := by
  obtain ⟨b, -, -, rfl⟩ := engQuery_ok hq
  exact signal_resting (.inr (.inr hc))

/-- R64: the registers a completing query leaves are a fixed point of every query at a tact no smaller. The block and the
start tact stay, so the later tact lies past the pause too. -/
theorem engQuery_completed_again {c : Config} {eng eng' : EngState} {t1 t2 : Nat}
    (hq : engQuery c eng t1 = .ok eng') (hc : eng'.phase = .completed) (ht : t1 ≤ t2) :
    engQuery c eng' t2 = .ok eng' := by
  obtain ⟨b, hb, hstart, rfl⟩ := engQuery_ok hq
  have hpast : totTacts c b ≤ t1 - eng.startTact := signal_completed_iff.mp hc
  have hsignal : ∀ t, t1 ≤ t → signal c b (t - eng.startTact) = (.completed, high) :=
    fun t h => signal_completed (by omega)
  have hagain := engQuery_of_signalBlock (eng := { eng with phase := .completed, level := high }) hb (hstart.trans ht)
  rw [hsignal t2 ht] at hagain
  rw [hsignal t1 le_rfl]
  exact hagain

/-- Settles O18: the first query leaves a completed engine, which the second leaves as it is. -/
theorem completedIsTerminal : Obligations.CompletedIsTerminal := by
  intro s s1 seq eng eng1 b t1 t2 hm _ _ ht hexec hm1 hc
  obtain ⟨eng', hq, rfl⟩ := exec_engSignalat_next hm hexec
  obtain rfl : eng' = eng1 := by simpa using hm1
  have hagain := engQuery_completed_again hq hc ht
  refine ⟨_, eng', exec_engSignalat_of_ok hm1 hagain, rfl, hc, ?_⟩
  rw [finish_result, engQuery_completed_level hq hc]

end Sys2Proof.Machine
end

section
/-! SUPPORT. O26: CAP.CLASSIFY answers by the tolerance windows alone (R53, R73). The classes are those of the pulse symbols,
so one equivalence over the symbols serves all six windows. -/

namespace Sys2Proof.Machine

/-! ## CAP.CLASSIFY (R73) -/

/-- R73: CAP.CLASSIFY writes nothing but its answer, the duration's class. -/
theorem exec_capClassify (d : Nat) (s : State) :
    exec (.capClassify d) s = .next { s with result := some (.pulseClass (classify s.cfg d)) } := by
  rw [exec, execCapClassify, finish_quiet]

/-! ## The windows (R9, R53) -/

section Windows
variable {c : Config} {d x : Nat}

/-- R9: matching an expected length is lying in its window, both ends included. -/
theorem matches_iff_window : Matches c d x ↔ x - c.tolerance ≤ d ∧ d ≤ x + c.tolerance := by
  unfold Matches
  omega

/-- R9: a duration that does not match lies below the window or above it. -/
theorem not_matches_iff_outside : ¬ Matches c d x ↔ d < x - c.tolerance ∨ x + c.tolerance < d := by
  rw [matches_iff_window]
  omega

/-- R53: under WF(cfg) the class of a pulse symbol is given exactly to the durations in the symbol's window. -/
theorem classify_eq_iff_window (h : c.ParametersWF) (p : PulseSymbol) {k : PulseClass} (hk : symbolClass p = some k) :
    classify c d = k ↔ pulseLength c p - c.tolerance ≤ d ∧ d ≤ pulseLength c p + c.tolerance := by
  have hp : p ≠ .pause := by
    rintro rfl
    cases hk
  rw [← matches_iff_window]
  constructor
  · rintro rfl
    exact matches_of_classify hk.symm
  · intro hd
    exact Option.some.inj ((classify_symbol h hp hd).trans hk)

/-- R53: `Other` is given exactly to the durations outside every window. -/
theorem classify_other_iff_outside :
    classify c d = .other ↔ ∀ x ∈ c.pulseLengths, d < x - c.tolerance ∨ x + c.tolerance < d := by
  simp only [classify_other, not_matches_iff_outside]

end Windows

/-- Settles O26: the answer is the duration's class, and each window is that of one pulse symbol. -/
theorem classifyByWindow : Obligations.ClassifyByWindow := by
  rintro s d ⟨hwf, -⟩
  exact ⟨classify s.cfg d, exec_capClassify d s,
    classify_eq_iff_window hwf .pilot rfl,
    classify_eq_iff_window hwf .sync1 rfl,
    classify_eq_iff_window hwf .sync2 rfl,
    classify_eq_iff_window hwf .bit0 rfl,
    classify_eq_iff_window hwf .bit1 rfl,
    classify_eq_iff_window hwf .term rfl,
    classify_other_iff_outside⟩

end Sys2Proof.Machine
end

section
/-! SUPPORT. O30: what a half-pulse does to the bit registers (R79), one lemma per case: it begins a bit, confirms one inside
the byte, confirms the byte's last one, or contradicts the pending half. -/

namespace Sys2Proof.Machine

/-! ## The half-pulse of a bit (R79) -/

section HalfPulse
variable {c : Config} {bit : Bool} {cap : CapState} {half : PrevPulse}

/-- R78: phases `Sync2` and `Data` share one rule for every pulse. -/
theorem capPulse_inData {k : PulseClass} (h : cap.phase = .sync2 ∨ cap.phase = .data) (sink : SinkState) :
    capPulse c k cap sink = edgeInData c k cap sink := by
  rcases h with h | h <;> simp only [capPulse, h]

/-- R79: in phases `Sync2` and `Data` a pulse of a bit's class is a half-pulse of that bit, and delivers nothing. -/
theorem capPulse_classOf (h : cap.phase = .sync2 ∨ cap.phase = .data) (sink : SinkState) :
    capPulse c (classOf bit) cap sink = quiet (halfPulse (halfOf bit) bit cap) sink := by
  rw [capPulse_inData h]
  cases bit <;> rfl

theorem halfOf_ne_noPulse (bit : Bool) : halfOf bit ≠ .noPulse := by
  cases bit <;> decide

theorem halfOf_not_ne (bit : Bool) : halfOf (!bit) ≠ halfOf bit := by
  cases bit <;> decide

/-- R79: the first half of a bit is remembered. -/
theorem halfPulse_of_noPulse (h : cap.prevPulse = .noPulse) :
    halfPulse half bit cap = { cap with prevPulse := half, phase := .data } :=
  if_pos h

/-- R79: a second half of the same class confirms the bit. -/
theorem halfPulse_of_same (h : cap.prevPulse = halfOf bit) : halfPulse (halfOf bit) bit cap = confirmBit bit cap := by
  have hpending : cap.prevPulse ≠ .noPulse := h ▸ halfOf_ne_noPulse bit
  rw [halfPulse, if_neg hpending, if_pos h]

/-- R79: a second half of the other class is a framing error. -/
theorem halfPulse_of_other (h : cap.prevPulse = halfOf (!bit)) :
    halfPulse (halfOf bit) bit cap = raiseCaptureError .framing cap := by
  have hpending : cap.prevPulse ≠ .noPulse := h ▸ halfOf_ne_noPulse (!bit)
  have hother : cap.prevPulse ≠ halfOf bit := h ▸ halfOf_not_ne bit
  rw [halfPulse, if_neg hpending, if_neg hother]

/-- R79: a bit before the byte's last one is set at its offset's mask, and the offset moves on. -/
theorem confirmBit_of_lt (h : cap.bitOffset < 7) :
    confirmBit bit cap = { cap with
      phase := .data, prevPulse := .noPulse, bitOffset := cap.bitOffset + 1
      byteAcc := if bit then cap.byteAcc ||| bitMask cap.bitOffset else cap.byteAcc } := by
  have hmore : ¬ cap.bitOffset + 1 = 8 := by omega
  simp only [confirmBit, if_neg hmore]

/-- R79: the byte's last bit appends the byte to the buffer and starts the next one. -/
theorem confirmBit_of_last (h : cap.bitOffset = 7) :
    confirmBit bit cap = { cap with
      phase := .data, prevPulse := .noPulse, bitOffset := 0, byteAcc := 0x00
      buffer := cap.buffer ++ [if bit then cap.byteAcc ||| bitMask 7 else cap.byteAcc] } := by
  simp [confirmBit, bufAppend, h]

end HalfPulse

/-- R79: in phases `Sync2` and `Data` an edge of a bit's class is that bit's half-pulse, and nothing is delivered. -/
theorem exec_capOnedge_classOf {s : State} {cap : CapState} {sink : SinkState} {tact : Nat} {bit : Bool} (level : Level)
    (hm : s.m = .save cap sink) (hphase : cap.phase = .sync2 ∨ cap.phase = .data) (ht : cap.lastEdgeTact ≤ tact)
    (hclass : classify s.cfg (tact - cap.lastEdgeTact) = classOf bit) :
    exec (.capOnedge tact level) s = .next
      { s with m := .save (halfPulse (halfOf bit) bit { cap with lastEdgeTact := tact }) sink, result := none } := by
  have herr : cap.phase ≠ .error := by
    rcases hphase with h | h <;> simp [h]
  have hedge : capEdge s.cfg cap sink tact =
      .ok (quiet (halfPulse (halfOf bit) bit { cap with lastEdgeTact := tact }) sink) := by
    rw [capEdge_of herr ht, hclass, capPulse_classOf (cap := { cap with lastEdgeTact := tact }) hphase]
  rw [exec_capOnedge_of_ok level hm hedge]
  simp only [quiet, finish_quiet]

/-- Settles O30: the edge is a half-pulse, and each clause is one case of the half-pulse. -/
theorem halfPulsesFormBits : Obligations.HalfPulsesFormBits := by
  intro s cap sink tact level bit hm hphase ht hclass _
  refine ⟨_, exec_capOnedge_classOf level hm hphase.symm ht hclass, ?_, ?_, ?_, ?_⟩
  · intro hnone
    exact halfPulse_of_noPulse hnone
  · intro hsame hlt
    exact (halfPulse_of_same (cap := { cap with lastEdgeTact := tact }) hsame).trans (confirmBit_of_lt hlt)
  · intro hsame hlast
    exact (halfPulse_of_same (cap := { cap with lastEdgeTact := tact }) hsame).trans (confirmBit_of_last hlast)
  · intro hother
    exact halfPulse_of_other hother

end Sys2Proof.Machine
end

section
/-! SUPPORT. O35: what a capture error leaves unchanged (R96). Wherever the phase machine writes phase `Error` it does nothing
else: one lemma per rule of the machine, then the dispatch and the edge. -/

namespace Sys2Proof.Machine

/-! ## The raise, rule by rule (R75 to R81) -/

section Raises
variable {c : Config} {k : PulseClass} {cap : CapState}

/-- R76: a pulse that makes phase `Pilot` an error writes nothing but the phase. -/
theorem edgeInPilot_of_error (h : cap.phase = .pilot) (he : (edgeInPilot c k cap).phase = .error) :
    edgeInPilot c k cap = { cap with phase := .error } := by
  unfold edgeInPilot at he ⊢
  split_ifs at he ⊢
  · simp [h] at he
  · rfl

/-- R77: a pulse that makes phase `Sync1` an error writes nothing but the phase. -/
theorem edgeInSync1_of_error (he : (edgeInSync1 k cap).phase = .error) :
    edgeInSync1 k cap = { cap with phase := .error } := by
  unfold edgeInSync1 at he ⊢
  split_ifs at he ⊢
  rfl

/-- R79: a half-pulse that is an error writes nothing but the phase: the byte's registers keep their values. -/
theorem halfPulse_of_error {half : PrevPulse} {bit : Bool} (he : (halfPulse half bit cap).phase = .error) :
    halfPulse half bit cap = { cap with phase := .error } := by
  unfold halfPulse at he ⊢
  split_ifs at he ⊢
  · simp at he
  · rfl

/-- R78 to R81: a pulse that makes phase `Sync2` or `Data` an error writes nothing but the phase, and delivers nothing: the
delivery ends in phase `None`. -/
theorem edgeInData_of_error {sink : SinkState} (he : (edgeInData c k cap sink).cap.phase = .error) :
    edgeInData c k cap sink = quiet { cap with phase := .error } sink := by
  cases k with
  | bit0 => exact congrArg (quiet · sink) (halfPulse_of_error he)
  | bit1 => exact congrArg (quiet · sink) (halfPulse_of_error he)
  | term =>
    unfold edgeInData at he ⊢
    split_ifs at he ⊢
    · simp at he
    · rfl
  | pilot | sync1 | sync2 | other => rfl

/-- R96: a pulse that leads to phase `Error`, from any other phase and whatever its class, writes nothing but the phase and
delivers nothing. -/
theorem capPulse_of_error {sink : SinkState} (h : cap.phase ≠ .error) (he : (capPulse c k cap sink).cap.phase = .error) :
    capPulse c k cap sink = quiet { cap with phase := .error } sink := by
  unfold capPulse at he ⊢
  split at he
  case h_1 hnone => exact absurd he (edgeInNone_phase_ne_error hnone)
  case h_2 hpilot => exact congrArg (quiet · sink) (edgeInPilot_of_error hpilot he)
  case h_3 => exact congrArg (quiet · sink) (edgeInSync1_of_error he)
  case h_4 => exact edgeInData_of_error he
  case h_5 => exact edgeInData_of_error he
  case h_6 herr => exact absurd herr h

end Raises

/-! ## The edge (R74, R96) -/

/-- R74, R96: an edge that leads to phase `Error` records its tact, writes the phase, and delivers nothing. -/
theorem capEdge_of_error {c : Config} {cap : CapState} {sink : SinkState} {tact : Nat} {a : CapAnswer}
    (h : cap.phase ≠ .error) (ha : capEdge c cap sink tact = .ok a) (he : a.cap.phase = .error) :
    a = quiet { cap with lastEdgeTact := tact, phase := .error } sink := by
  obtain ⟨herr, -⟩ | ⟨-, -, rfl⟩ := capEdge_ok ha
  · exact absurd herr h
  · exact capPulse_of_error (cap := { cap with lastEdgeTact := tact }) h he

/-- All CAP.ONEDGE can answer next in a Save session. -/
theorem exec_capOnedge_next {s t : State} {cap : CapState} {sink : SinkState} {tact : Nat} {level : Level}
    (hm : s.m = .save cap sink) (h : exec (.capOnedge tact level) s = .next t) :
    ∃ a, capEdge s.cfg cap sink tact = .ok a ∧ t = s.finish (.save a.cap a.sink) a.emitted none := by
  rw [exec_capOnedge, execCapOnedge, withSave_of _ hm] at h
  obtain ⟨a, ha, ht⟩ := orRefuse_next h
  cases ht
  exact ⟨a, ha, rfl⟩

/-- Settles O35: the edge's answer is stored as it is, and one in phase `Error` is the old decoder but for the phase and the
edge's tact, with nothing emitted. -/
theorem captureErrorChangesOnlyThePhase : Obligations.CaptureErrorChangesOnlyThePhase := by
  intro s t cap cap' sink sink' tact level hm hphase hexec hm' herr
  obtain ⟨a, ha, rfl⟩ := exec_capOnedge_next hm hexec
  obtain ⟨hcap, -⟩ : a.cap = cap' ∧ a.sink = sink' := by simpa using hm'
  obtain rfl := capEdge_of_error hphase ha (hcap ▸ herr)
  exact finish_quiet ..

end Sys2Proof.Machine
end

section
/-! SUPPORT. O1 to O6: the operand fields of every operation word read back what was written and are what was read (R56), so
decoder and encoder agree; and a step decodes the pending request, refuses it, or idles (R11, R105). -/

namespace Sys2Proof

variable {c : Config}

/-! ## From an operation to its word and back (R56) -/

theorem takeTactOperand_natToBits (make : Nat → Instr) {tact : Nat} (h : tact < 2 ^ c.tactBits) (rest : List Bool) :
    takeTactOperand c make (natToBits c.tactBits tact ++ rest) = .ok (make tact, rest) := by
  rw [takeTactOperand, takeNat_natToBits h]
  rfl

/-- R52: the characters of a name that fits come back from their bytes. -/
theorem map_charOfByte_bytes {name : Name} (h : ∀ ch ∈ name, ch.toNat < 256) :
    (name.map fun ch => BitVec.ofNat 8 ch.toNat).map charOfByte = name := by
  rw [List.map_map]
  exact List.map_congr_left (fun ch hch => charOfByte_ofNat (h ch hch)) |>.trans (List.map_id _)

/-- R56: the decoder reads back the operands of a well-formed operation. -/
theorem decodeOperands_operandBits {i : Instr} (h : i.wellFormed c = true) (rest : List Bool) :
    decodeOperands c i.number (operandBits c i ++ rest) = .ok (i, rest) := by
  cases i with
  | fetch pc tact =>
    obtain ⟨hpc, htact⟩ : FitsIn c.addrBits pc ∧ FitsIn c.tactBits tact := of_decide_eq_true h
    simp only [Instr.number, decodeOperands, operandBits, List.append_assoc, takeNat_natToBits hpc, bind, Except.bind,
      takeNat_natToBits htact]
    rfl
  | engNew blockIndex startTact =>
    obtain ⟨hindex, hstart⟩ : FitsIn c.tactBits blockIndex ∧ FitsIn c.tactBits startTact := of_decide_eq_true h
    simp only [Instr.number, decodeOperands, operandBits, List.append_assoc, takeNat_natToBits hindex, bind, Except.bind,
      takeNat_natToBits hstart]
    rfl
  | micwr tact level | capOnedge tact level =>
    have htact : FitsIn c.tactBits tact := of_decide_eq_true h
    simp only [Instr.number, decodeOperands, operandBits, List.append_assoc, takeNat_natToBits htact, bind, Except.bind,
      List.cons_append, List.nil_append, takeBool_cons]
    rfl
  | earrd tact | engSignalat tact | seqInitplay tact | seqGetearbit tact | capInit tact | capClassify tact
  | capSilent tact => exact takeTactOperand_natToBits _ (of_decide_eq_true h) rest
  | setName name =>
    obtain ⟨hlen, hchars⟩ : NameFits c name := of_decide_eq_true h
    simp only [Instr.number, decodeOperands, operandBits, bind, Except.bind,
      takeCounted_countedToBits (bytes := name.map fun ch => BitVec.ofNat 8 ch.toNat) (by simpa using hlen)]
    simp only [map_charOfByte_bytes hchars]
    rfl
  | appendBlock block =>
    have hblock : BlockFits c block := of_decide_eq_true h
    simp only [Instr.number, decodeOperands, operandBits, bind, Except.bind, takeBlock_blockToBits hblock]
    rfl
  | reset | capComplete | enteredLoad | leftLoad | enteredSave | leftSave | createFile | finalize | pilot | sync1 | sync2
  | bit0 | bit1 | term | pause => rfl

theorem decode_natToBits_append {n : Nat} (h : n < 2 ^ 8) (bits : List Bool) :
    decode c (natToBits 8 n ++ bits) = decodeOperands c n bits := by
  rw [decode, takeNat_natToBits h]
  rfl

/-- Settles O1: the number selects the reader of the operands, which reads them back. -/
theorem operationWordRoundTrip : Obligations.OperationWordRoundTrip := by
  intro c i rest h
  rw [encode, List.append_assoc, decode_natToBits_append (number_lt i), decodeOperands_operandBits h]

/-! ## From a word to its operation and back (R56) -/

/-- What the decoder reads after the number `n`: a well-formed operation of that number, whose operands the bits hold. -/
structure ReadsAs (c : Config) (n : Nat) (bits : List Bool) (i : Instr) (rest : List Bool) : Prop where
  number : i.number = n
  wellFormed : i.wellFormed c = true
  bits : bits = operandBits c i ++ rest

/-- An operation without operands reads no bits. -/
theorem readsAs_of_noOperand {i i' : Instr} {bits rest : List Bool} (hwf : i.wellFormed c = true)
    (hbits : operandBits c i = []) (h : (.ok (i, bits) : Except DecodeError _) = .ok (i', rest)) :
    ReadsAs c i.number bits i' rest := by
  cases h
  exact ⟨rfl, hwf, by rw [hbits, List.nil_append]⟩

/-- An operation with one tact, duration or index operand. -/
theorem readsAs_of_tactOperand {make : Nat → Instr} {n : Nat} {i : Instr} {bits rest : List Bool}
    (hn : ∀ t, (make t).number = n) (hwf : ∀ t, (make t).wellFormed c = decide (FitsIn c.tactBits t))
    (hbits : ∀ t, operandBits c (make t) = natToBits c.tactBits t)
    (h : takeTactOperand c make bits = .ok (i, rest)) : ReadsAs c n bits i rest := by
  obtain ⟨t, rfl, hlt, rfl⟩ := takeTactOperand_ok h
  exact ⟨hn t, by rw [hwf]; exact decide_eq_true hlt, by rw [hbits]⟩

/-- R52: the bytes of a name come back from their characters. -/
theorem map_bytes_charOfByte (bytes : List Byte) :
    (bytes.map charOfByte).map (fun ch => BitVec.ofNat 8 ch.toNat) = bytes := by
  rw [List.map_map]
  refine (List.map_congr_left fun v _ => ?_).trans (List.map_id _)
  rw [Function.comp_apply, charOfByte_toNat, BitVec.ofNat_toNat, BitVec.setWidth_eq, id]

/-- A name read from counted bytes fits. -/
theorem nameFits_map_charOfByte {bytes : List Byte} (h : bytes.length < 2 ^ c.tactBits) :
    NameFits c (bytes.map charOfByte) := by
  refine ⟨by rwa [FitsIn, List.length_map], fun ch hch => ?_⟩
  obtain ⟨v, -, rfl⟩ := List.mem_map.mp hch
  rw [charOfByte_toNat]
  exact v.isLt

/-- R56: all the operand reader can answer. -/
theorem decodeOperands_ok {n : Nat} {bits rest : List Bool} {i : Instr}
    (h : decodeOperands c n bits = .ok (i, rest)) : ReadsAs c n bits i rest := by
  unfold decodeOperands at h
  split at h
  -- FETCH
  case h_2 =>
    obtain ⟨⟨pc, bits1⟩, hpc, h1⟩ := bind_ok h
    obtain ⟨⟨tact, bits2⟩, htact, h2⟩ := bind_ok h1
    obtain ⟨rfl, hpcFits⟩ := takeNat_ok hpc
    obtain ⟨rfl, htactFits⟩ := takeNat_ok htact
    cases h2
    exact ⟨rfl, decide_eq_true ⟨hpcFits, htactFits⟩, (List.append_assoc ..).symm⟩
  -- ENG.NEW
  case h_5 =>
    obtain ⟨⟨blockIndex, bits1⟩, hindex, h1⟩ := bind_ok h
    obtain ⟨⟨startTact, bits2⟩, hstart, h2⟩ := bind_ok h1
    obtain ⟨rfl, hindexFits⟩ := takeNat_ok hindex
    obtain ⟨rfl, hstartFits⟩ := takeNat_ok hstart
    cases h2
    exact ⟨rfl, decide_eq_true ⟨hindexFits, hstartFits⟩, (List.append_assoc ..).symm⟩
  -- MICWR and CAP.ONEDGE
  case h_4 | h_11 =>
    obtain ⟨⟨tact, bits1⟩, htact, h1⟩ := bind_ok h
    obtain ⟨⟨level, bits2⟩, hlevel, h2⟩ := bind_ok h1
    obtain ⟨rfl, htactFits⟩ := takeNat_ok htact
    obtain rfl := takeBool_ok hlevel
    cases h2
    exact ⟨rfl, decide_eq_true htactFits, (List.append_assoc _ [level] _).symm⟩
  -- setName
  case h_19 =>
    obtain ⟨⟨bytes, bits1⟩, hbytes, h1⟩ := bind_ok h
    obtain ⟨rfl, hlen⟩ := takeCounted_ok hbytes
    cases h1
    exact ⟨rfl, decide_eq_true (nameFits_map_charOfByte hlen), by rw [operandBits, map_bytes_charOfByte]⟩
  -- appendBlock
  case h_20 =>
    obtain ⟨⟨block, bits1⟩, hblock, h1⟩ := bind_ok h
    obtain ⟨rfl, hfits⟩ := takeBlock_ok hblock
    cases h1
    exact ⟨rfl, decide_eq_true hfits, rfl⟩
  -- the operations with one tact, duration or index
  case h_3 | h_6 | h_7 | h_8 | h_9 | h_10 | h_13 =>
    exact readsAs_of_tactOperand (fun _ => rfl) (fun _ => rfl) (fun _ => rfl) h
  -- a number that names nothing
  case h_29 => cases h
  -- the operations without operands
  all_goals exact readsAs_of_noOperand rfl rfl h

/-- Settles O2: the number read is the operation's, and so are the operands. -/
theorem decodedBitsAreTheWord : Obligations.DecodedBitsAreTheWord := by
  intro c bits rest i h
  obtain ⟨⟨n, bits1⟩, hn, hoperands⟩ := bind_ok h
  obtain ⟨rfl, hwf, hbits⟩ := decodeOperands_ok hoperands
  obtain ⟨hword, -⟩ := takeNat_ok hn
  exact ⟨hwf, by rw [hword, hbits, encode, List.append_assoc]⟩

/-! ## Words of the spec, and numbers that name nothing -/

/-- Settles O3: each word is the word of its operation, whose operands fit their fields. -/
theorem specWordsDecode : Obligations.SpecWordsDecode := by
  intro c haddr htact
  have word : ∀ i : Instr, i.wellFormed c = true → decode c (encode c i) = .ok (i, []) := by
    intro i h
    simpa using operationWordRoundTrip c i [] h
  rw [← haddr, ← htact]
  refine ⟨word .reset rfl, ?_, ?_, ?_, ?_, word .enteredLoad rfl, word .pause rfl⟩
  · rw [List.append_assoc]
    exact word (.fetch 0x056C 1000) (by simp [Instr.wellFormed, haddr, htact])
  · exact word (.earrd 1020) (by simp [Instr.wellFormed, htact])
  · rw [List.append_assoc]
    exact word (.micwr 5037 low) (by simp [Instr.wellFormed, htact])
  · exact word (.engSignalat 20) (by simp [Instr.wellFormed, htact])

/-- R56, U20: the numbers that name nothing. -/
theorem decodeOperands_unassigned {n : Nat}
    (h : 0x04 ≤ n ∧ n ≤ 0x0F ∨ 0x14 ≤ n ∧ n ≤ 0x17 ∨ 0x1D ≤ n ∧ n ≤ 0x1F ∨ 0x24 ≤ n ∧ n ≤ 0x27 ∨
      0x2C ≤ n ∧ n ≤ 0x2F ∨ 0x37 ≤ n ∧ n ≤ 0xFF) (bits : List Bool) :
    decodeOperands c n bits = .error (.unknownOperation n) := by
  unfold decodeOperands
  split
  case h_29 => rfl
  all_goals omega

end Sys2Proof

namespace Sys2Proof.Machine

/-! ## The step (R11, R105) -/

/-- U20: a step refuses a request that is no operation word. -/
theorem step_of_decode_error {s : State} {e : DecodeError} (hwf : s.cfg.ParametersWF) (hi : s.input ≠ [])
    (hd : decode s.cfg s.input = .error e) : step s = .refused (.badOperationWord e) := by
  rw [step, if_neg hi, if_pos hwf, hd]

/-- R11, U8: a step refuses every request under a configuration that violates R6 (a) to (f). -/
theorem step_of_not_wf {s : State} (hi : s.input ≠ []) (hwf : ¬ s.cfg.ParametersWF) :
    step s = .refused .configNotWellFormed := by
  rw [step, if_neg hi, if_neg hwf]

/-- Settles O4: the decoder stops at the number, and a step at the decoder's error. -/
theorem unassignedNumbersRefused : Obligations.UnassignedNumbersRefused := by
  intro c n rest hn
  have hdecode : decode c (natToBits 8 n ++ rest) = .error (.unknownOperation n) := by
    rw [decode_natToBits_append (by omega), decodeOperands_unassigned hn]
  refine ⟨hdecode, ?_⟩
  rintro s rfl hwf hinput
  exact step_of_decode_error hwf (by rw [hinput]; exact List.cons_ne_nil _ _) (by rw [hinput, hdecode])

/-- Settles O5: the pending request is a well-formed word, so it decodes to its operation. -/
theorem stepPerformsTheRequest : Obligations.StepPerformsTheRequest := by
  intro s i rest hwf hinput hi
  exact step_of_decode hwf (by rw [hinput]; exact operationWordRoundTrip s.cfg i rest hi)

/-- Settles O6: the two tests a step makes before it decodes. -/
theorem stepIdlesOrRefusesTheConfiguration : Obligations.StepIdlesOrRefusesTheConfiguration :=
  ⟨fun _ => step_idle, fun _ => step_of_not_wf⟩

end Sys2Proof.Machine
end

section
/-! SUPPORT. O7, O8, O10 to O13, O15, O20, O25, O36, O42 to O44, O54: the rule of each operation, once per mode. The host
operations of R86 to R92, the component operations in their session (R60, R67, R72, R83, R84), the events (R10) and the pulse
symbols (R44). Later proofs go through these rules. -/

namespace Sys2Proof.Machine

/-! ## Host operations (R86 to R92) -/

section HostOperations
variable {s : State} {seq : SeqState} {eng : EngState} {cap : CapState} {sink : SinkState} {tact : Nat}

theorem exec_reset (s : State) : exec .reset s = .next { s with clk := { last := 0 }, m := .passive, result := none } :=
  rfl

theorem exec_fetch (pc tact : Nat) (s : State) : exec (.fetch pc tact) s = execFetch pc tact s := rfl

theorem exec_earrd (tact : Nat) (s : State) : exec (.earrd tact) s = execEarrd tact s := rfl

theorem exec_micwr (tact : Nat) (level : Level) (s : State) : exec (.micwr tact level) s = execMicwr tact level s := rfl

/-- R88: FETCH in `Passive`. -/
theorem exec_fetch_passive (pc : Nat) (hm : s.m = .passive) (ht : s.clk.last ≤ tact) :
    exec (.fetch pc tact) s = fetchPassive pc tact { s with clk := { last := tact } } := by
  simp only [exec_fetch, execFetch, timed_of_le _ ht, hm]

/-- R89: FETCH in `Load`. -/
theorem exec_fetch_load (pc : Nat) (hm : s.m = .load seq eng) (ht : s.clk.last ≤ tact) :
    exec (.fetch pc tact) s = fetchLoad pc seq { s with clk := { last := tact } } := by
  simp only [exec_fetch, execFetch, timed_of_le _ ht, hm]

/-- R90: FETCH in `Save`. -/
theorem exec_fetch_save (pc : Nat) (hm : s.m = .save cap sink) (ht : s.clk.last ≤ tact) :
    exec (.fetch pc tact) s = fetchSave pc tact cap { s with clk := { last := tact } } := by
  simp only [exec_fetch, execFetch, timed_of_le _ ht, hm]

/-- R91: outside `Load` EARRD answers the resting level. -/
theorem exec_earrd_resting (hmode : s.mode ≠ .load) (ht : s.clk.last ≤ tact) :
    exec (.earrd tact) s = .next { s with clk := { last := tact }, result := some (.level high) } := by
  rw [exec_earrd, execEarrd, timed_of_le _ ht]
  cases hm : s.m with
  | passive | save _ _ => simp only [finish_quiet]
  | load _ _ => exact absurd (by rw [State.mode, hm, mode_load]) hmode

/-- R91: in `Load` EARRD is what SEQ.GETEARBIT is at its tact. -/
theorem exec_earrd_load (hm : s.m = .load seq eng) (ht : s.clk.last ≤ tact) :
    exec (.earrd tact) s = exec (.seqGetearbit tact) { s with clk := { last := tact } } := by
  simp only [execEarrd, timed_of_le _ ht, hm, exec, execSeqGetearbit, withLoad]

/-- R92: outside `Save` MICWR is ignored. -/
theorem exec_micwr_ignored (level : Level) (hmode : s.mode ≠ .save) (ht : s.clk.last ≤ tact) :
    exec (.micwr tact level) s = .next { s with clk := { last := tact }, result := none } := by
  rw [exec_micwr, execMicwr, timed_of_le _ ht]
  cases hm : s.m with
  | passive | load _ _ => simp only [finish_quiet]
  | save _ _ => exact absurd (by rw [State.mode, hm, mode_save]) hmode

/-- R92: a level that repeats the last one is no edge. -/
theorem exec_micwr_repeated (hm : s.m = .save cap sink) (ht : s.clk.last ≤ tact) :
    exec (.micwr tact cap.micLevel) s = .next { s with clk := { last := tact }, result := none } := by
  rw [exec_micwr, execMicwr, timed_of_le _ ht]
  simp only [hm, if_true, finish_quiet]

/-- R92: any other level is recorded, and is what CAP.ONEDGE is at its tact. -/
theorem exec_micwr_edge {level : Level} (hm : s.m = .save cap sink) (ht : s.clk.last ≤ tact)
    (hl : level ≠ cap.micLevel) :
    exec (.micwr tact level) s = exec (.capOnedge tact level)
      { s with clk := { last := tact }, m := .save { cap with micLevel := level } sink } := by
  rw [exec_micwr, execMicwr, timed_of_le _ ht, exec_capOnedge, execCapOnedge, withSave_of _ rfl]
  simp only [hm, if_neg hl]
  rfl

end HostOperations

/-- Settles O7: RESET writes these fields and no other. -/
theorem resetDiscardsTheSession : Obligations.ResetDiscardsTheSession :=
  ⟨exec_reset, rfl, rfl, rfl⟩

/-- Settles O8: the three timed operations share R86's check. -/
theorem decreasingTactRefused : Obligations.DecreasingTactRefused := by
  intro s pc tact level ht
  exact ⟨(exec_fetch ..).trans (timed_of_lt _ ht), (exec_earrd ..).trans (timed_of_lt _ ht),
    (exec_micwr ..).trans (timed_of_lt _ ht)⟩

/-- Settles O10: the two branches of R89. -/
theorem fetchInLoad : Obligations.FetchInLoad := by
  intro s seq eng pc tact hm ht
  rw [exec_fetch_load pc hm ht]
  refine ⟨fun hends => ?_, fun hpc heof => ?_⟩
  · rw [fetchLoad, if_pos hends, State.endSession, State.finish]
    simp only [hm, endEvents]
  · rw [fetchLoad, if_neg (by simp [hpc, heof]), finish_quiet]

theorem silentAt_eq (c : Config) {last tact : Nat} (h : last ≤ tact) :
    silentAt c last tact = decide (last + c.silenceThreshold < tact) := by
  rw [silentAt, decide_eq_decide]
  omega

section FetchSave
variable {s : State} {cap : CapState} {sink : SinkState} {pc tact : Nat}

/-- R90: when neither the error handler nor a capture error ends the session, the silence predicate decides. -/
theorem fetchSave_of_asks {silent : Bool} {freeCount : Nat} (hpc : pc ≠ s.cfg.errorHandlerAddr)
    (hphase : cap.phase ≠ .error) (hasks : s.askSilence cap tact = (silent, { s with freeCount := freeCount })) :
    fetchSave pc tact cap s =
      if silent then .next { s with freeCount := freeCount }.endSession
      else .next { s with freeCount := freeCount, result := none } := by
  rw [fetchSave, if_neg (by simp [hpc, hphase]), hasks]
  simp only [finish_quiet]

/-- R90: the three reasons that end the session. -/
theorem fetchSave_of_ends (h : pc = s.cfg.errorHandlerAddr ∨ cap.phase = .error ∨
    cap.lastEdgeTact + s.cfg.silenceThreshold < tact) : fetchSave pc tact cap s = .next s.endSession := by
  by_cases hnow : pc = s.cfg.errorHandlerAddr ∨ cap.phase = .error
  · exact if_pos hnow
  · obtain ⟨hpc, hphase⟩ := not_or.mp hnow
    have hlate : cap.lastEdgeTact + s.cfg.silenceThreshold < tact := (h.resolve_left hpc).resolve_left hphase
    rw [fetchSave_of_asks hpc hphase (askSilence_of_le (by omega)), silentAt_eq _ (by omega),
      if_pos (decide_eq_true hlate)]

/-- R90: none of them holds. -/
theorem fetchSave_of_stays (hpc : pc ≠ s.cfg.errorHandlerAddr) (hphase : cap.phase ≠ .error)
    (hedge : cap.lastEdgeTact ≤ tact) (hthr : tact ≤ cap.lastEdgeTact + s.cfg.silenceThreshold) :
    fetchSave pc tact cap s = .next { s with result := none } := by
  rw [fetchSave_of_asks hpc hphase (askSilence_of_le hedge), silentAt_eq _ hedge, if_neg (by simpa using hthr)]

/-- R90 below the last edge: the session ends or goes on as the free answer says (log entry 14). -/
theorem fetchSave_of_free (hpc : pc ≠ s.cfg.errorHandlerAddr) (hphase : cap.phase ≠ .error)
    (hedge : tact < cap.lastEdgeTact) :
    fetchSave pc tact cap s = .next { s with freeCount := s.freeCount + 1 }.endSession ∨
    fetchSave pc tact cap s = .next { s with result := none, freeCount := s.freeCount + 1 } := by
  rw [fetchSave_of_asks hpc hphase (askSilence_of_lt hedge)]
  cases Config.freeSilent s.freeCount
  · exact .inr rfl
  · exact .inl rfl

/-- R90: `finalize` before `leftSave` exactly when a file was created. -/
theorem endSession_save (hm : s.m = .save cap sink) :
    s.endSession = { s with
      m := .passive, result := none
      events := s.events ++ ((if sink.fileCreated = true then [.finalize] else []) ++ [.leftSave]) } := by
  rw [State.endSession, State.finish, hm]
  rfl

end FetchSave

/-- Settles O11: the reasons that end the session, their absence, and the free answer below the last edge. -/
theorem fetchInSave : Obligations.FetchInSave := by
  intro s cap sink pc tact hm ht
  rw [exec_fetch_save pc hm ht]
  have hend := fun freeCount =>
    endSession_save (s := { s with clk := { last := tact }, freeCount := freeCount }) (sink := sink) hm
  refine ⟨fun hends => ?_, fun hpc hphase hedge hthr => ?_, fun hpc hphase hedge => ⟨s.freeCount + 1, ?_⟩⟩
  · exact (fetchSave_of_ends (s := { s with clk := { last := tact } }) hends).trans (congrArg _ (hend s.freeCount))
  · exact fetchSave_of_stays (s := { s with clk := { last := tact } }) hpc hphase hedge hthr
  · exact (fetchSave_of_free (s := { s with clk := { last := tact } }) hpc hphase hedge).imp_left
      fun h => h.trans (congrArg _ (hend (s.freeCount + 1)))

/-- Settles O12: the two rules of EARRD. -/
theorem earrdByMode : Obligations.EarrdByMode := by
  intro s tact ht
  refine ⟨fun hmode => exec_earrd_resting hmode ht, fun hmode => ?_⟩
  obtain ⟨seq, eng, hm⟩ := exists_load_of_mode hmode
  exact exec_earrd_load hm ht

/-- Settles O13: the three rules of MICWR. -/
theorem micwrByMode : Obligations.MicwrByMode := by
  intro s tact level ht
  refine ⟨fun hmode => exec_micwr_ignored level hmode ht, fun cap sink hm => ⟨?_, exec_micwr_edge hm ht⟩⟩
  rintro rfl
  exact exec_micwr_repeated hm ht

/-! ## Component operations (R60, R67, R72, R83, R84) -/

section ComponentOperations
variable {s : State} {seq : SeqState} {eng : EngState} {cap : CapState} {sink : SinkState} {tact : Nat}

/-- R60: ENG.NEW. -/
theorem exec_engNew_of (blockIndex startTact : Nat) (hm : s.m = .load seq eng) :
    exec (.engNew blockIndex startTact) s =
      .next { s with m := .load seq (engFresh blockIndex startTact), result := none } := by
  rw [exec, execEngNew, withLoad_of _ hm, finish_quiet]

/-- R61: ENG.SIGNALAT is what the engine's query is. -/
theorem exec_engSignalat_of (tact : Nat) (hm : s.m = .load seq eng) :
    exec (.engSignalat tact) s = orRefuse (engQuery s.cfg eng tact) fun eng' =>
      .next { s with m := .load seq eng', result := some (.level eng'.level) } := by
  rw [exec_engSignalat, execEngSignalat, withLoad_of _ hm]
  simp only [finish_quiet]

/-- R67: SEQ.INITPLAY. -/
theorem exec_seqInitplay_of (startTact : Nat) (hm : s.m = .load seq eng) :
    exec (.seqInitplay startTact) s =
      .next { s with m := .load (seqStart s.cfg startTact).1 (seqStart s.cfg startTact).2, result := none } := by
  rw [exec, execSeqInitplay, withLoad_of _ hm, finish_quiet]

/-- R68: SEQ.GETEARBIT is what the sequencer's query is. -/
theorem exec_seqGetearbit_of (tact : Nat) (hm : s.m = .load seq eng) :
    exec (.seqGetearbit tact) s = orRefuse (seqQuery s.cfg seq eng tact) fun a =>
      .next { s with m := .load a.seq a.eng, result := some (.level a.level) } := by
  rw [exec, execSeqGetearbit, withLoad_of _ hm]
  simp only [finish_quiet]

/-- R72: CAP.INIT. -/
theorem exec_capInit_of (tact : Nat) (hm : s.m = .save cap sink) :
    exec (.capInit tact) s = .next { s with m := .save (capFresh tact) sinkFresh, result := none } := by
  rw [exec, execCapInit, withSave_of _ hm, finish_quiet]

/-- R83: CAP.COMPLETE. -/
theorem exec_capComplete_of (hm : s.m = .save cap sink) :
    exec .capComplete s = .next (s.finish (.save (capDeliver s.cfg cap sink).cap (capDeliver s.cfg cap sink).sink)
      (capDeliver s.cfg cap sink).emitted none) := by
  rw [exec, execCapComplete, withSave_of _ hm]

/-- R84: CAP.SILENT answers what the silence predicate does. -/
theorem exec_capSilent_of {silent : Bool} {freeCount : Nat} (hm : s.m = .save cap sink)
    (hasks : s.askSilence cap tact = (silent, { s with freeCount := freeCount })) :
    exec (.capSilent tact) s = .next { s with freeCount := freeCount, result := some (.silent silent) } := by
  rw [exec, execCapSilent, withSave_of _ hm, hasks]
  simp only [finish_quiet]

end ComponentOperations

/-- Settles O15: the fresh engine's registers. -/
theorem engNewGivesAFreshInstance : Obligations.EngNewGivesAFreshInstance := by
  intro s seq eng blockIndex startTact hm
  exact exec_engNew_of blockIndex startTact hm

/-- Settles O20: the registers a playback session starts with; a tape is empty when its length is 0. -/
theorem initplayBeginsAtBlockZero : Obligations.InitplayBeginsAtBlockZero := by
  intro s startTact hmode
  obtain ⟨seq, eng, hm⟩ := exists_load_of_mode hmode
  have heof : s.cfg.tape.isEmpty = decide (s.cfg.tape.length = 0) := by
    cases s.cfg.tape <;> rfl
  rw [exec_seqInitplay_of startTact hm, ← heof]
  rfl

/-- Settles O25: the registers a capture session starts with. -/
theorem capInitCreatesTheSession : Obligations.CapInitCreatesTheSession := by
  intro s tact hmode
  obtain ⟨cap, sink, hm⟩ := exists_save_of_mode hmode
  exact exec_capInit_of tact hm

/-- Settles O36: from the last edge on the answer is the comparison; below it the answer is free. -/
theorem silenceIsStrict : Obligations.SilenceIsStrict := by
  intro s cap sink tact hm
  refine ⟨fun hedge => ?_, fun hedge => ⟨_, _, exec_capSilent_of hm (askSilence_of_lt hedge)⟩⟩
  rw [exec_capSilent_of hm (askSilence_of_le hedge), silentAt_eq _ hedge]

/-- Settles O54: the session access refuses outside the mode. -/
theorem componentOperationsNeedTheirSession : Obligations.ComponentOperationsNeedTheirSession := by
  intro s n tact level
  exact ⟨fun h => ⟨withLoad_refused _ h, withLoad_refused _ h, withLoad_refused _ h, withLoad_refused _ h⟩,
    fun h => ⟨withSave_refused _ h, withSave_refused _ h, withSave_refused _ h, withSave_refused _ h⟩⟩

/-! ## Events and pulse symbols (R10, R44) -/

/-- Settles O42: each event is emitted, and emitting writes the streams only. -/
theorem outputEventsAreEmitted : Obligations.OutputEventsAreEmitted := by
  intro s name block
  exact ⟨rfl, rfl, rfl, rfl, rfl, rfl, rfl, rfl⟩

theorem answerPulse_eq (p : PulseSymbol) (s : State) :
    answerPulse p s = .next { s with result := some (.pulse (pulseInfo s.cfg 0 p)) } := by
  rw [answerPulse, finish_quiet]

/-- Settles O43: each symbol answers its row of R44. -/
theorem pulseSymbolsAnswerTheirRow : Obligations.PulseSymbolsAnswerTheirRow := by
  intro s
  exact ⟨answerPulse_eq .pilot s, answerPulse_eq .sync1 s, answerPulse_eq .sync2 s, answerPulse_eq .bit0 s,
    answerPulse_eq .bit1 s, answerPulse_eq .term s⟩

theorem boundStandardBlock_of {s : State} {seq : SeqState} {eng : EngState} {b : DataBlock} (hm : s.m = .load seq eng)
    (hb : s.cfg.tape[eng.block]? = some b) (hk : b.kind = .standardData) : boundStandardBlock s = some b := by
  simp only [boundStandardBlock, hm, hb, hk, if_true]

/-- R44, R49: PAUSE with a standard block bound. -/
theorem exec_pause_bound {s : State} {b : DataBlock} (h : boundStandardBlock s = some b) :
    exec .pause s = .next { s with result := some (.pulse (pulseInfo s.cfg (pauseTacts s.cfg b) .pause)) } := by
  simp only [exec, execPause, h, finish_quiet]

/-- R44: PAUSE with none bound answers a free length. -/
theorem exec_pause_unbound {s : State} (h : boundStandardBlock s = none) :
    exec .pause s = .next { s with
      freeCount := s.freeCount + 1
      result := some (.pulse (pulseInfo s.cfg (Config.freePauseTacts s.freeCount) .pause)) } := by
  simp only [exec, execPause, h, finish_quiet]

/-- Settles O44: the window of the bound block, and some window in every state. -/
theorem pauseAnswersTheWindow : Obligations.PauseAnswersTheWindow := by
  refine ⟨fun s seq eng b hm hb hk => exec_pause_bound (boundStandardBlock_of hm hb hk), fun s => ?_⟩
  cases hbound : boundStandardBlock s with
  | some b => exact ⟨pauseTacts s.cfg b, s.freeCount, exec_pause_bound hbound⟩
  | none => exact ⟨Config.freePauseTacts s.freeCount, s.freeCount + 1, exec_pause_unbound hbound⟩

end Sys2Proof.Machine
end

section
/-! SUPPORT. O27 to O29, O31 to O33: what one edge does in each phase of the capture decoder (R75 to R83). Each phase has its
rule for a pulse; the edge is the pulse of its class. -/

namespace Sys2Proof.Machine

section Edges
variable {s : State} {c : Config} {cap cap' : CapState} {sink : SinkState} {tact : Nat} {k : PulseClass}

/-- R74: an edge whose pulse delivers nothing leaves what the pulse leaves. -/
theorem exec_capOnedge_of_quiet (level : Level) (hm : s.m = .save cap sink) (herr : cap.phase ≠ .error)
    (ht : cap.lastEdgeTact ≤ tact)
    (hpulse : capPulse s.cfg (classify s.cfg (tact - cap.lastEdgeTact)) { cap with lastEdgeTact := tact } sink =
      quiet cap' sink) :
    exec (.capOnedge tact level) s = .next { s with m := .save cap' sink, result := none } := by
  rw [exec_capOnedge_of_ok level hm ((capEdge_of herr ht).trans (congrArg _ hpulse))]
  exact congrArg _ (finish_quiet ..)

/-- R76: in phase `Pilot` the dispatch is `edgeInPilot`. -/
theorem capPulse_inPilot (h : cap.phase = .pilot) (sink : SinkState) :
    capPulse c k cap sink = quiet (edgeInPilot c k cap) sink := by
  simp only [capPulse, h]

/-- R77: in phase `Sync1` the dispatch is `edgeInSync1`. -/
theorem capPulse_inSync1 (h : cap.phase = .sync1) (sink : SinkState) :
    capPulse c k cap sink = quiet (edgeInSync1 k cap) sink := by
  simp only [capPulse, h]

/-- R76: a further pilot pulse counts. -/
theorem edgeInPilot_pilot : edgeInPilot c .pilot cap = { cap with pilotCount := cap.pilotCount + 1 } := rfl

/-- R76: a sync1 pulse after enough pilots is accepted. -/
theorem edgeInPilot_sync1 (h : c.minPilotCount ≤ cap.pilotCount) :
    edgeInPilot c .sync1 cap = { cap with phase := .sync1 } := by
  simp [edgeInPilot, h]

/-- R76: any other pulse is an error. -/
theorem edgeInPilot_other (hpilot : k ≠ .pilot) (hsync : k = .sync1 → cap.pilotCount < c.minPilotCount) :
    edgeInPilot c k cap = { cap with phase := .error } := by
  rw [edgeInPilot, if_neg hpilot, if_neg fun h => absurd (hsync h.1) (Nat.not_lt.mpr h.2)]
  rfl

/-- R37, R80: the byte boundary. -/
theorem atByteBoundary_iff : cap.atByteBoundary = true ↔ cap.bitOffset = 0 ∧ cap.prevPulse = .noPulse := by
  simp [CapState.atByteBoundary]

/-- R80: a terminator at a byte boundary delivers the block. -/
theorem edgeInData_term (h : cap.atByteBoundary = true) (sink : SinkState) :
    edgeInData c .term cap sink = capDeliver c cap sink := by
  simp only [edgeInData, h, if_true]

/-- R81: any pulse that is no half-pulse and no terminator at a byte boundary is an error. -/
theorem edgeInData_foreign (h0 : k ≠ .bit0) (h1 : k ≠ .bit1) (hterm : k = .term → cap.atByteBoundary = false)
    (sink : SinkState) : edgeInData c k cap sink = quiet { cap with phase := .error } sink := by
  cases k with
  | bit0 => exact absurd rfl h0
  | bit1 => exact absurd rfl h1
  | term => simp only [edgeInData, hterm rfl, Bool.false_eq_true, if_false, raiseCaptureError]
  | pilot | sync1 | sync2 | other => rfl

/-- R83: the first completion of a session creates the file. -/
theorem capDeliver_first (h : cap.blockCount = 0) (sink : SinkState) :
    capDeliver c cap sink =
      ⟨{ cap with blockCount := cap.blockCount + 1, phase := .none }, { fileCreated := true },
        [.createFile] ++ nameSuggestion c cap.buffer ++ [.appendBlock (capturedBlock c cap)]⟩ := by
  simp [capDeliver, h]

/-- R83: every later completion only delivers. -/
theorem capDeliver_later (h : cap.blockCount ≠ 0) (sink : SinkState) :
    capDeliver c cap sink =
      ⟨{ cap with blockCount := cap.blockCount + 1, phase := .none }, sink,
        [.appendBlock (capturedBlock c cap)]⟩ := by
  simp [capDeliver, h]

theorem capDeliver_cap (c : Config) (cap : CapState) (sink : SinkState) :
    (capDeliver c cap sink).cap = { cap with blockCount := cap.blockCount + 1, phase := .none } := by
  simp only [capDeliver]
  split <;> rfl

end Edges

/-- Settles O27: the two branches of R75. -/
theorem edgeInPhaseNone : Obligations.EdgeInPhaseNone := by
  intro s cap sink tact level hm hphase ht
  exact exec_capOnedge_of_quiet level hm (by simp [hphase]) ht
    (capPulse_inNone (cap := { cap with lastEdgeTact := tact }) hphase sink)

/-- Settles O28: the branches of R76. -/
theorem edgeInPhasePilot : Obligations.EdgeInPhasePilot := by
  intro s cap sink tact level hm hphase ht
  refine ⟨_, exec_capOnedge_of_quiet level hm (by simp [hphase]) ht
    (capPulse_inPilot (cap := { cap with lastEdgeTact := tact }) hphase sink), ?_, ?_, ?_, ?_⟩
  · intro hk
    rw [hk, edgeInPilot_pilot]
  · intro hk hmin
    rw [hk, edgeInPilot_sync1 (cap := { cap with lastEdgeTact := tact }) hmin]
  · intro hk hmin
    exact edgeInPilot_other (by simp [hk]) fun _ => hmin
  · intro hpilot hsync
    exact edgeInPilot_other hpilot fun h => absurd h hsync

/-- Settles O29: the two branches of R77. -/
theorem edgeInPhaseSync1 : Obligations.EdgeInPhaseSync1 := by
  intro s cap sink tact level hm hphase ht
  exact exec_capOnedge_of_quiet level hm (by simp [hphase]) ht
    (capPulse_inSync1 (cap := { cap with lastEdgeTact := tact }) hphase sink)

theorem phase_ne_error_of_data {cap : CapState} (h : cap.phase = .data ∨ cap.phase = .sync2) : cap.phase ≠ .error := by
  rcases h with h | h <;> simp [h]

/-- R80: a terminator pulse at a byte boundary is R83's completion at its tact. -/
theorem exec_capOnedge_term {s : State} {cap : CapState} {sink : SinkState} {tact : Nat} (level : Level)
    (hm : s.m = .save cap sink) (hphase : cap.phase = .data ∨ cap.phase = .sync2) (ht : cap.lastEdgeTact ≤ tact)
    (hk : classify s.cfg (tact - cap.lastEdgeTact) = .term) (hboundary : cap.atByteBoundary = true) :
    exec (.capOnedge tact level) s =
      .next (s.finish (.save { (capDeliver s.cfg cap sink).cap with lastEdgeTact := tact } (capDeliver s.cfg cap sink).sink)
        (capDeliver s.cfg cap sink).emitted none) := by
  rw [exec_capOnedge_of_ok level hm (capEdge_of (phase_ne_error_of_data hphase) ht), hk, capPulse_withEdge,
    capPulse_inData hphase.symm, edgeInData_term hboundary]

/-- Settles O31: the terminator and CAP.COMPLETE deliver alike; the first completion differs from the later ones. -/
theorem terminatorDeliversTheBlock : Obligations.TerminatorDeliversTheBlock := by
  intro s cap sink hm
  refine ⟨(capDeliver s.cfg cap sink).sink, (capDeliver s.cfg cap sink).emitted, ?_, ?_, ?_, ?_, rfl⟩
  · intro tact level hphase ht hk hoffset hprev
    rw [exec_capOnedge_term level hm hphase ht hk (atByteBoundary_iff.mpr ⟨hoffset, hprev⟩), capDeliver_cap]
    rfl
  · rw [exec_capComplete_of hm, capDeliver_cap]
    rfl
  · intro hfirst
    rw [capDeliver_first hfirst]
    exact ⟨rfl, rfl⟩
  · intro hlater
    rw [capDeliver_later hlater]
    exact ⟨rfl, rfl⟩

/-- Settles O32: R81's error, which delivers nothing. -/
theorem foreignPulseInDataIsAnError : Obligations.ForeignPulseInDataIsAnError := by
  intro s cap sink tact level hm hphase ht h0 h1 hterm
  refine exec_capOnedge_of_quiet level hm (phase_ne_error_of_data hphase) ht ?_
  rw [capPulse_inData (cap := { cap with lastEdgeTact := tact }) hphase.symm]
  refine edgeInData_foreign h0 h1 (fun hk => ?_) sink
  rw [← Bool.not_eq_true, atByteBoundary_iff]
  exact fun hboundary => hterm ⟨hk, hboundary⟩

/-- Settles O33: R82. -/
theorem errorPhaseAbsorbsEdges : Obligations.ErrorPhaseAbsorbsEdges := by
  intro s cap sink tact level hm hphase
  rw [exec_capOnedge_of_ok level hm (capEdge_error hphase)]
  simp only [quiet, finish_quiet, ← hm]

end Sys2Proof.Machine
end

section
/-! SUPPORT. What an operation can do, said once: `SessionStep` lists every change of the running session with its guard and
its events, `Performed` adds the rest of the state, and `exec_next` is the inversion of `exec`. The rules of the whole machine
(O24, O40, O48 to O53, and O9 and O14 among the host operations) are read off it. -/

namespace Sys2Proof.Machine

/-- R10: the event that an output-event operation emits; the other operations are no events. -/
def eventOf : Instr → Option OutputEvent
  | .enteredLoad => some .enteredLoad
  | .leftLoad => some .leftLoad
  | .enteredSave => some .enteredSave
  | .leftSave => some .leftSave
  | .createFile => some .createFile
  | .setName name => some (.setName name)
  | .appendBlock block => some (.appendBlock block)
  | .finalize => some .finalize
  | _ => none

/-- R14, R86, R87: the clock register after an operation. -/
def clkAfter (i : Instr) (clk : ClkState) : ClkState :=
  match timedTact i with
  | some tact => { last := tact }
  | none => if i = .reset then { last := 0 } else clk

/-- Every way in which an operation takes a session to the next, and the events it emits on that way. -/
inductive SessionStep (c : Config) : Instr → Session → Session → List OutputEvent → Prop
  | reset (m : Session) : SessionStep c .reset m .passive []
  | enterLoad (tact : Nat) :
    SessionStep c (.fetch c.loadEntryAddr tact) .passive (.load (seqStart c tact).1 (seqStart c tact).2) [.enteredLoad]
  | enterSave (tact : Nat) :
    SessionStep c (.fetch c.saveEntryAddr tact) .passive (.save (capFresh tact) sinkFresh) [.enteredSave]
  | ends (pc tact : Nat) {m : Session} (hm : m ≠ .passive) : SessionStep c (.fetch pc tact) m .passive (endEvents m)
  | query {i : Instr} {tact : Nat} {seq : SeqState} {eng : EngState} {a : EarAnswer}
    (hi : i = .seqGetearbit tact ∨ i = .earrd tact) (h : seqQuery c seq eng tact = .ok a) :
    SessionStep c i (.load seq eng) (.load a.seq a.eng) []
  | signal {tact : Nat} {seq : SeqState} {eng eng' : EngState} (h : engQuery c eng tact = .ok eng') :
    SessionStep c (.engSignalat tact) (.load seq eng) (.load seq eng') []
  | newEngine (n start : Nat) (seq : SeqState) (eng : EngState) :
    SessionStep c (.engNew n start) (.load seq eng) (.load seq (engFresh n start)) []
  | initplay (start : Nat) (seq : SeqState) (eng : EngState) :
    SessionStep c (.seqInitplay start) (.load seq eng) (.load (seqStart c start).1 (seqStart c start).2) []
  | capInit (tact : Nat) (cap : CapState) (sink : SinkState) :
    SessionStep c (.capInit tact) (.save cap sink) (.save (capFresh tact) sinkFresh) []
  | edge {tact : Nat} (level : Level) {cap : CapState} {sink : SinkState} {a : CapAnswer}
    (h : capEdge c cap sink tact = .ok a) :
    SessionStep c (.capOnedge tact level) (.save cap sink) (.save a.cap a.sink) a.emitted
  | micEdge {tact : Nat} {level : Level} {cap : CapState} {sink : SinkState} {a : CapAnswer}
    (hlevel : level ≠ cap.micLevel) (h : capEdge c { cap with micLevel := level } sink tact = .ok a) :
    SessionStep c (.micwr tact level) (.save cap sink) (.save a.cap a.sink) a.emitted
  | complete (cap : CapState) (sink : SinkState) :
    SessionStep c .capComplete (.save cap sink) (.save (capDeliver c cap sink).cap (capDeliver c cap sink).sink)
      (capDeliver c cap sink).emitted
  | event {i : Instr} {e : OutputEvent} (he : eventOf i = some e) (m : Session) : SessionStep c i m m [e]
  | stays {i : Instr} (hi : i ≠ .reset) (m : Session) : SessionStep c i m m []

/-- What an operation that answers a next state has done. -/
structure Performed (i : Instr) (s t : State) (emitted : List OutputEvent) : Prop where
  session : SessionStep s.cfg i s.m t.m emitted
  cfg : t.cfg = s.cfg
  clk : t.clk = clkAfter i s.clk
  input : t.input = s.input
  events : t.events = s.events ++ emitted

section Inversions
variable {i : Instr} {s s0 t : State} {m : Session} {es : List OutputEvent}

/-- Every operation but RESET ends with `State.finish`, on the state with the clock set and perhaps free values drawn. -/
theorem performed_finish (r : Option OpResult) {n : Nat} (h : SessionStep s.cfg i s.m m es)
    (hs : { s with clk := clkAfter i s.clk, freeCount := n } = s0) : Performed i s (s0.finish m es r) es := by
  subst hs
  exact ⟨h, rfl, rfl, rfl, rfl⟩

/-- An operation that leaves the session and emits nothing. -/
theorem performed_stays (r : Option OpResult) {n : Nat} (hi : i ≠ .reset)
    (hs : { s with clk := clkAfter i s.clk, freeCount := n } = s0) : Performed i s (s0.finish s0.m [] r) [] := by
  subst hs
  exact performed_finish r (n := n) (.stays hi s.m) rfl

/-- R100: a session that ends. -/
theorem performed_ends {pc tact n : Nat} (hm : s.m ≠ .passive)
    (hs : { s with clk := { last := tact }, freeCount := n } = s0) :
    Performed (.fetch pc tact) s s0.endSession (endEvents s.m) := by
  subst hs
  exact performed_finish none (n := n) (.ends pc tact hm) rfl

/-- R88 to R90: all a FETCH can do. -/
theorem fetch_next {pc tact : Nat} (h : exec (.fetch pc tact) s = .next t) :
    ∃ es, Performed (.fetch pc tact) s t es := by
  obtain ⟨ht, -⟩ := timed_next ((exec_fetch ..).symm.trans h)
  cases hm : s.m with
  | passive =>
    rw [exec_fetch_passive pc hm ht, fetchPassive] at h
    split_ifs at h with hload hsave <;> cases h
    · subst hload
      exact ⟨_, performed_finish none (n := s.freeCount) (hm ▸ .enterLoad tact) rfl⟩
    · subst hsave
      exact ⟨_, performed_finish none (n := s.freeCount) (hm ▸ .enterSave tact) rfl⟩
    · exact ⟨_, performed_stays none (n := s.freeCount) (by simp) rfl⟩
  | load seq eng =>
    rw [exec_fetch_load pc hm ht, fetchLoad] at h
    split_ifs at h <;> cases h
    · exact ⟨_, performed_ends (n := s.freeCount) (by simp [hm]) rfl⟩
    · exact ⟨_, performed_stays none (n := s.freeCount) (by simp) rfl⟩
  | save cap sink =>
    obtain ⟨silent, n, hasks, -⟩ := askSilence_cases { s with clk := { last := tact } } cap tact
    rw [exec_fetch_save pc hm ht, fetchSave, hasks] at h
    split_ifs at h
    · cases h
      exact ⟨_, performed_ends (n := s.freeCount) (by simp [hm]) rfl⟩
    · cases silent <;> cases h
      · exact ⟨_, performed_stays none (n := n) (by simp) rfl⟩
      · exact ⟨_, performed_ends (n := n) (by simp [hm]) rfl⟩

/-- R68: all a SEQ.GETEARBIT can do. -/
theorem seqGetearbit_next {tact : Nat} (h : exec (.seqGetearbit tact) s = .next t) :
    ∃ seq eng a, s.m = .load seq eng ∧ seqQuery s.cfg seq eng tact = .ok a ∧
      t = { s with m := .load a.seq a.eng, result := some (.level a.level) } := by
  obtain ⟨seq, eng, hm, -⟩ := withLoad_next h
  rw [exec_seqGetearbit_of tact hm] at h
  obtain ⟨a, ha, hnext⟩ := orRefuse_next h
  cases hnext
  exact ⟨seq, eng, a, hm, ha, rfl⟩

/-- R91: all an EARRD can do. -/
theorem earrd_next {tact : Nat} (h : exec (.earrd tact) s = .next t) : Performed (.earrd tact) s t [] := by
  obtain ⟨ht, -⟩ := timed_next ((exec_earrd ..).symm.trans h)
  by_cases hmode : s.mode = .load
  · obtain ⟨seq, eng, hm⟩ := exists_load_of_mode hmode
    rw [exec_earrd_load hm ht] at h
    obtain ⟨seq, eng, a, hm, ha, rfl⟩ := seqGetearbit_next h
    exact ⟨hm ▸ .query (.inr rfl) ha, rfl, rfl, rfl, (List.append_nil _).symm⟩
  · rw [exec_earrd_resting hmode ht] at h
    cases h
    exact ⟨.stays (by simp) s.m, rfl, rfl, rfl, (List.append_nil _).symm⟩

/-- R92: all a MICWR can do. -/
theorem micwr_next {tact : Nat} {level : Level} (h : exec (.micwr tact level) s = .next t) :
    ∃ es, Performed (.micwr tact level) s t es := by
  obtain ⟨ht, -⟩ := timed_next ((exec_micwr ..).symm.trans h)
  by_cases hmode : s.mode = .save
  · obtain ⟨cap, sink, hm⟩ := exists_save_of_mode hmode
    by_cases hlevel : level = cap.micLevel
    · subst hlevel
      rw [exec_micwr_repeated hm ht] at h
      cases h
      exact ⟨_, .stays (by simp) s.m, rfl, rfl, rfl, (List.append_nil _).symm⟩
    · rw [exec_micwr_edge hm ht hlevel] at h
      obtain ⟨a, ha, rfl⟩ := exec_capOnedge_next rfl h
      exact ⟨_, hm ▸ .micEdge hlevel ha, rfl, rfl, rfl, rfl⟩
  · rw [exec_micwr_ignored level hmode ht] at h
    cases h
    exact ⟨_, .stays (by simp) s.m, rfl, rfl, rfl, (List.append_nil _).symm⟩

/-- R10: an event's operation emits it. -/
theorem exec_event {e : OutputEvent} (he : eventOf i = some e) : exec i s = .next (s.emit e) := by
  cases i <;> cases he <;> rfl

/-- An event writes the streams only. -/
theorem event_next {e : OutputEvent} (he : eventOf i = some e) (h : exec i s = .next t) : Performed i s t [e] := by
  rw [exec_event he] at h
  cases h
  have hclk : clkAfter i s.clk = s.clk := by cases i <;> cases he <;> rfl
  exact performed_finish none (n := s.freeCount) (.event he s.m) (by rw [hclk])

/-- R44: all PAUSE can do. -/
theorem pause_next (h : exec .pause s = .next t) : Performed .pause s t [] := by
  cases hbound : boundStandardBlock s with
  | some b =>
    rw [exec_pause_bound hbound] at h
    cases h
    exact ⟨.stays (by simp) s.m, rfl, rfl, rfl, (List.append_nil _).symm⟩
  | none =>
    rw [exec_pause_unbound hbound] at h
    cases h
    exact ⟨.stays (by simp) s.m, rfl, rfl, rfl, (List.append_nil _).symm⟩

/-- All an operation can answer next. -/
theorem exec_next (h : exec i s = .next t) : ∃ es, Performed i s t es := by
  cases i with
  | reset =>
    cases h
    exact ⟨[], .reset s.m, rfl, rfl, rfl, (List.append_nil _).symm⟩
  | fetch pc tact => exact fetch_next h
  | earrd tact => exact ⟨_, earrd_next h⟩
  | micwr tact level => exact micwr_next h
  | engNew n start =>
    obtain ⟨seq, eng, hm, hnext⟩ := withLoad_next h
    cases hnext
    exact ⟨_, performed_finish none (n := s.freeCount) (hm ▸ .newEngine n start seq eng) rfl⟩
  | engSignalat tact =>
    obtain ⟨seq, eng, hm, -⟩ := withLoad_next h
    obtain ⟨eng', hq, rfl⟩ := exec_engSignalat_next hm h
    exact ⟨_, performed_finish _ (n := s.freeCount) (hm ▸ .signal hq) rfl⟩
  | seqInitplay start =>
    obtain ⟨seq, eng, hm, hnext⟩ := withLoad_next h
    cases hnext
    exact ⟨_, performed_finish none (n := s.freeCount) (hm ▸ .initplay start seq eng) rfl⟩
  | seqGetearbit tact =>
    obtain ⟨seq, eng, a, hm, ha, rfl⟩ := seqGetearbit_next h
    exact ⟨_, hm ▸ .query (.inl rfl) ha, rfl, rfl, rfl, (List.append_nil _).symm⟩
  | capInit tact =>
    obtain ⟨cap, sink, hm, hnext⟩ := withSave_next h
    cases hnext
    exact ⟨_, performed_finish none (n := s.freeCount) (hm ▸ .capInit tact cap sink) rfl⟩
  | capClassify d =>
    cases h
    exact ⟨_, performed_stays _ (n := s.freeCount) (by simp) rfl⟩
  | capOnedge tact level =>
    obtain ⟨cap, sink, hm, -⟩ := withSave_next h
    obtain ⟨a, ha, rfl⟩ := exec_capOnedge_next hm h
    exact ⟨_, performed_finish none (n := s.freeCount) (hm ▸ .edge level ha) rfl⟩
  | capComplete =>
    obtain ⟨cap, sink, hm, hnext⟩ := withSave_next h
    cases hnext
    exact ⟨_, performed_finish none (n := s.freeCount) (hm ▸ .complete cap sink) rfl⟩
  | capSilent tact =>
    obtain ⟨cap, sink, hm, -⟩ := withSave_next h
    obtain ⟨silent, n, hasks, -⟩ := askSilence_cases s cap tact
    rw [exec_capSilent_of hm hasks] at h
    cases h
    exact ⟨_, .stays (by simp) s.m, rfl, rfl, rfl, (List.append_nil _).symm⟩
  | pilot | sync1 | sync2 | bit0 | bit1 | term =>
    cases h
    exact ⟨_, performed_stays _ (n := s.freeCount) (by simp) rfl⟩
  | pause => exact ⟨_, pause_next h⟩
  | enteredLoad | leftLoad | enteredSave | leftSave | createFile | setName | appendBlock | finalize =>
    exact ⟨_, event_next rfl h⟩

end Inversions

end Sys2Proof.Machine
end

section
/-! SUPPORT. O9, O14, O24, O40, O48 to O53: the rules of the whole machine. Each is a fact about one session step, read off the
cases of `SessionStep`, which `exec_next` then carries over to every operation. -/

namespace Sys2Proof.Machine

/-! ## The invariants (R13, R17, R18, R22, R75 to R83) -/

/-- `State.Inv` as a property of the session. -/
def SessionInv (c : Config) : Session → Prop
  | .passive => True
  | .load seq eng => LoadInv c seq eng
  | .save cap sink => SaveInv c cap sink

theorem inv_iff (s : State) : s.Inv ↔ SessionInv s.cfg s.m := by
  unfold State.Inv SessionInv
  cases s.m <;> rfl

/-- `State.HostInv` as a property of the session and the clock. -/
def SessionHostInv (last : Nat) : Session → Prop
  | .passive => True
  | .load seq eng => eng.startTact ≤ last ∧ eng.block = seq.blockIndex
  | .save cap _ => cap.lastEdgeTact ≤ last

theorem hostInv_iff (s : State) : s.HostInv ↔ SessionHostInv s.clk.last s.m := by
  unfold State.HostInv SessionHostInv
  cases s.m <;> rfl

/-- MICWR's record of the level is outside the invariant. -/
theorem saveInv_micLevel {c : Config} {cap : CapState} {sink : SinkState} (level : Level) (h : SaveInv c cap sink) :
    SaveInv c { cap with micLevel := level } sink :=
  ⟨h.offsetInByte, h.lowBitsZero, h.sync2Fresh, h.pilotSeen, h.enoughPilots, h.fileIffBlock⟩

/-- Every step of a session keeps its invariant. -/
theorem sessionStep_keeps_inv {c : Config} {i : Instr} {m m' : Session} {es : List OutputEvent}
    (h : SessionStep c i m m' es) (hinv : SessionInv c m) : SessionInv c m' := by
  cases h with
  | reset | ends => trivial
  | enterLoad tact => exact loadInv_start c tact
  | initplay start => exact loadInv_start c start
  | enterSave tact | capInit tact => exact saveInv_fresh c tact
  | query _ hq => exact loadInv_seqQuery hinv hq
  | signal hq => exact loadInv_engQuery hinv hq
  | newEngine n start => exact loadInv_engFresh n start hinv
  | edge _ ha => exact saveInv_edge hinv ha
  | micEdge _ ha => exact saveInv_edge (saveInv_micLevel _ hinv) ha
  | complete => exact saveInv_deliver hinv
  | event | stays => exact hinv

theorem performed_keeps_inv {i : Instr} {s t : State} {es : List OutputEvent} (h : Performed i s t es)
    (hinv : s.Inv) : t.Inv := by
  rw [inv_iff, h.cfg]
  exact sessionStep_keeps_inv h.session ((inv_iff s).mp hinv)

/-- Settles O48: a step idles or performs an operation, and taking the request from the input touches no session register. -/
theorem everyStepKeepsTheRegisterInvariant : Obligations.EveryStepKeepsTheRegisterInvariant := by
  intro s t hinv hstep
  obtain ⟨-, rfl⟩ | ⟨i, rest, -, -, -, hexec⟩ := step_next hstep
  · exact hinv
  · obtain ⟨es, h⟩ := exec_next hexec
    exact performed_keeps_inv h hinv

/-- Settles O49: no session, no event. -/
theorem resetMeetsTheInvariants : Obligations.ResetMeetsTheInvariants :=
  ⟨trivial, trivial, rfl⟩

/-! ## The mode (R15, R94) -/

/-- R94: a session step changes the mode at a RESET or at a FETCH that begins or ends a session. -/
theorem sessionStep_mode {c : Config} {i : Instr} {m m' : Session} {es : List OutputEvent}
    (h : SessionStep c i m m' es) (hmode : m'.mode ≠ m.mode) :
    (i = .reset ∧ m' = .passive) ∨
    (∃ tact, i = .fetch c.loadEntryAddr tact ∧ m = .passive) ∨
    (∃ tact, i = .fetch c.saveEntryAddr tact ∧ m = .passive) ∨
    ∃ pc tact, i = .fetch pc tact ∧ m' = .passive := by
  cases h with
  | reset => exact .inl ⟨rfl, rfl⟩
  | enterLoad tact => exact .inr (.inl ⟨tact, rfl, rfl⟩)
  | enterSave tact => exact .inr (.inr (.inl ⟨tact, rfl, rfl⟩))
  | ends pc tact => exact .inr (.inr (.inr ⟨pc, tact, rfl, rfl⟩))
  | query | signal | newEngine | initplay | capInit | edge | micEdge | complete | event | stays =>
    exact absurd rfl hmode

/-- Settles O50: the operations that change the mode. -/
theorem onlyFetchAndResetChangeTheMode : Obligations.OnlyFetchAndResetChangeTheMode := by
  intro i s t hexec hmode
  obtain ⟨es, h⟩ := exec_next hexec
  rcases sessionStep_mode h.session hmode with ⟨hi, hm⟩ | ⟨tact, hi, hm⟩ | ⟨tact, hi, hm⟩ | ⟨pc, tact, hi, hm⟩
  · exact .inl ⟨hi, by rw [State.mode, hm, mode_passive]⟩
  · exact .inr ⟨⟨_, tact, hi⟩, .inl (by rw [State.mode, hm, mode_passive])⟩
  · exact .inr ⟨⟨_, tact, hi⟩, .inl (by rw [State.mode, hm, mode_passive])⟩
  · exact .inr ⟨⟨pc, tact, hi⟩, .inr (by rw [State.mode, hm, mode_passive])⟩

/-- R88: the session that a FETCH in `Passive` leaves. -/
def enteredSession (c : Config) (pc tact : Nat) : Session :=
  if pc = c.loadEntryAddr then .load (seqStart c tact).1 (seqStart c tact).2
  else if pc = c.saveEntryAddr then .save (capFresh tact) sinkFresh
  else .passive

/-- R88: a FETCH in `Passive` answers, and its session depends on the configuration and the operands alone. -/
theorem exec_fetch_passive_session {s : State} {tact : Nat} (pc : Nat) (hm : s.m = .passive)
    (ht : s.clk.last ≤ tact) :
    ∃ t, exec (.fetch pc tact) s = .next t ∧ t.m = enteredSession s.cfg pc tact ∧ t.clk = { last := tact } := by
  rw [exec_fetch_passive pc hm ht, fetchPassive, enteredSession]
  split_ifs
  · exact ⟨_, rfl, rfl, rfl⟩
  · exact ⟨_, rfl, rfl, rfl⟩
  · exact ⟨_, rfl, hm, rfl⟩

/-- R86: a timed operation that answers has a tact not below `clk.last`. -/
theorem clk_le_of_fetch {s t : State} {pc tact : Nat} (h : exec (.fetch pc tact) s = .next t) : s.clk.last ≤ tact :=
  (timed_next ((exec_fetch ..).symm.trans h)).1

/-- Settles O53: both FETCH operations are performed in `Passive` under one configuration. -/
theorem reentryRestoresNothing : Obligations.ReentryRestoresNothing := by
  intro s s1 s2 pc1 pc2 t1 t2 _ h1 hmode1 h2
  obtain ⟨es, hp⟩ := exec_next h1
  obtain ⟨r, hr, hrm, hrclk⟩ := exec_fetch_passive_session (s := { s with clk := ⟨0⟩, m := .passive, result := none })
    (tact := t2) pc2 rfl (Nat.zero_le _)
  obtain ⟨s2', h2', hm, hclk⟩ := exec_fetch_passive_session pc2 (passive_of_mode hmode1) (clk_le_of_fetch h2)
  obtain rfl : s2' = s2 := by simpa [h2] using h2'.symm
  exact ⟨_, r, exec_reset s, hr, by rw [hm, hrm, hp.cfg], by rw [hclk, hrclk]⟩

/-- R67: the registers a playback session starts with, written out. -/
theorem seqStart_eq (c : Config) (tact : Nat) : seqStart c tact =
    ({ blockIndex := 0, eof := decide (c.tape = []) },
      { block := 0, startTact := tact, phase := .notStarted, level := high }) := by
  rw [seqStart, engFresh]
  cases c.tape <;> rfl

/-- Settles O9: the three branches of R88; over an empty tape the Load session begins at end of tape, where R89 ends it. -/
theorem fetchInPassive : Obligations.FetchInPassive := by
  intro s pc tact hwf hm ht
  obtain ⟨⟨-, -, -, ⟨hne, -⟩, -⟩, -⟩ := hwf
  have hload : pc = s.cfg.loadEntryAddr → exec (.fetch pc tact) s = .next
      { s with clk := { last := tact }, result := none, events := s.events ++ [.enteredLoad]
               m := .load { blockIndex := 0, eof := decide (s.cfg.tape = []) }
                 { block := 0, startTact := tact, phase := .notStarted, level := high } } := by
    intro hpc
    rw [exec_fetch_passive pc hm ht, fetchPassive, if_pos hpc, State.enterLoad, seqStart_eq]
    rfl
  refine ⟨hload, fun hpc => ?_, fun hpc1 hpc2 => ?_, fun hpc htape t pc' tact' ht' hexec => ?_, fun i t hexec hmode => ?_⟩
  · rw [exec_fetch_passive pc hm ht, fetchPassive, if_neg (by rw [hpc]; exact hne.symm), if_pos hpc]
    rfl
  · rw [exec_fetch_passive pc hm ht, fetchPassive, if_neg hpc1, if_neg hpc2, finish_quiet]
  · rw [hload hpc] at hexec
    cases hexec
    rw [(fetchInLoad _ _ _ pc' tact' rfl ht').1 (.inr (decide_eq_true htape)), List.append_assoc]
    rfl
  · obtain ⟨es, h⟩ := exec_next hexec
    rcases sessionStep_mode h.session (by rwa [hm]) with ⟨-, ht⟩ | ⟨tact', hi, -⟩ | ⟨tact', hi, -⟩ | ⟨-, -, -, ht⟩
    · exact absurd (by rw [State.mode, ht, mode_passive]) hmode
    · exact ⟨_, tact', hi, .inl rfl⟩
    · exact ⟨_, tact', hi, .inr rfl⟩
    · exact absurd (by rw [State.mode, ht, mode_passive]) hmode

/-! ## The frame (R13, R16, R29, R42, R86) -/

/-- The playback operations and EARRD emit nothing. -/
theorem sessionStep_playback_quiet {c : Config} {i : Instr} {m m' : Session} {es : List OutputEvent} {tact : Nat}
    (h : SessionStep c i m m' es)
    (hi : i = .earrd tact ∨ i = .engSignalat tact ∨ i = .seqGetearbit tact ∨ i = .seqInitplay tact ∨
      ∃ k, i = .engNew k tact) : es = [] := by
  cases h with
  | query | signal | newEngine | initplay | reset | stays => rfl
  | event he => rcases hi with rfl | rfl | rfl | rfl | ⟨k, rfl⟩ <;> cases he
  | enterLoad | enterSave | ends | capInit | edge | micEdge | complete => simp at hi

/-- The operations that write no session register. -/
theorem sessionStep_same_session {c : Config} {i : Instr} {m m' : Session} {es : List OutputEvent}
    (h : SessionStep c i m m' es) (hi : 0x20 ≤ i.number ∨ ∃ d, i = .capClassify d ∨ i = .capSilent d) : m' = m := by
  cases h with
  | event | stays => rfl
  | query hq => rcases hq with rfl | rfl <;> simp [Instr.number] at hi
  | reset | enterLoad | enterSave | ends | signal | newEngine | initplay | capInit | edge | micEdge | complete =>
    simp [Instr.number] at hi

/-- Settles O51: the frame that `Performed` states, and the two facts about session steps. -/
theorem frameOfEveryOperation : Obligations.FrameOfEveryOperation := by
  intro i s t hexec
  obtain ⟨es, h⟩ := exec_next hexec
  refine ⟨h.cfg, h.input, ⟨es, h.events⟩, ?_, ?_, ?_, ?_, fun hi => sessionStep_same_session h.session hi⟩
  · intro tact hi
    rw [h.clk, clkAfter, hi]
  · rintro rfl
    rw [h.clk]
    rfl
  · intro hi hne
    rw [h.clk, clkAfter, hi]
    exact if_neg hne
  · rintro ⟨tact, hi⟩
    rw [h.events, sessionStep_playback_quiet h.session hi, List.append_nil]

/-! ## Playback (R71) -/

/-- R71: a sequencer query only moves forward. -/
theorem seqQuery_forward {c : Config} {seq : SeqState} {eng : EngState} {tact : Nat} {a : EarAnswer}
    (h : seqQuery c seq eng tact = .ok a) :
    seq.blockIndex ≤ a.seq.blockIndex ∧ eng.startTact ≤ a.eng.startTact ∧ (seq.eof = true → a.seq.eof = true) := by
  rcases seqQuery_ok h with ⟨-, rfl⟩ | ⟨heof, hloop⟩
  · exact ⟨le_rfl, le_rfl, id⟩
  · have A := seqLoop_ok rfl hloop
    exact ⟨A.forward, A.startForward, fun h => by simp [heof] at h⟩

/-- Settles O24: the operation is a sequencer query, or leaves the session. -/
theorem playbackOnlyMovesForward : Obligations.PlaybackOnlyMovesForward := by
  intro s t seq eng tact i hm hi hexec
  obtain ⟨es, h⟩ := exec_next hexec
  have hstep := h.session
  rw [hm] at hstep
  generalize t.m = m' at hstep ⊢
  cases hstep with
  | query _ hq => exact ⟨_, _, rfl, seqQuery_forward hq⟩
  | event | stays => exact ⟨seq, eng, rfl, le_rfl, le_rfl, id⟩
  | reset | ends | signal | newEngine | initplay => simp at hi

/-! ## Delivery (R80, R97, R100) -/

/-- R80, R97: a pulse either delivers nothing and leaves the sink alone, or is a terminator at a byte boundary in the data
phases, which delivers the block. -/
theorem capPulse_delivery (c : Config) (k : PulseClass) (cap : CapState) (sink : SinkState) :
    (∃ cap', capPulse c k cap sink = quiet cap' sink) ∨
    ((cap.phase = .data ∨ cap.phase = .sync2) ∧ k = .term ∧ cap.atByteBoundary = true ∧
      capPulse c k cap sink = capDeliver c cap sink) := by
  by_cases hdata : cap.phase = .data ∨ cap.phase = .sync2
  · rw [capPulse_inData hdata.symm]
    cases k with
    | bit0 | bit1 | pilot | sync1 | sync2 | other => exact .inl ⟨_, rfl⟩
    | term =>
      by_cases hb : cap.atByteBoundary = true
      · exact .inr ⟨hdata, rfl, hb, edgeInData_term hb sink⟩
      · exact .inl ⟨_, edgeInData_foreign (by simp) (by simp) (fun _ => Bool.not_eq_true _ ▸ hb) sink⟩
  · left
    cases hp : cap.phase with
    | data => exact absurd (.inl hp) hdata
    | sync2 => exact absurd (.inr hp) hdata
    | none | pilot | sync1 | error => simp only [capPulse, hp]; exact ⟨_, rfl⟩

/-- R97: an edge either delivers nothing and leaves the sink alone, or ends a whole block. -/
theorem capEdge_delivery {c : Config} {cap : CapState} {sink : SinkState} {tact : Nat} {a : CapAnswer}
    (h : capEdge c cap sink tact = .ok a) :
    (a.emitted = [] ∧ a.sink = sink) ∨
    ((cap.phase = .data ∨ cap.phase = .sync2) ∧ classify c (tact - cap.lastEdgeTact) = .term ∧
      cap.atByteBoundary = true ∧ a = capDeliver c { cap with lastEdgeTact := tact } sink) := by
  obtain ⟨-, rfl⟩ | ⟨-, -, rfl⟩ := capEdge_ok h
  · exact .inl ⟨rfl, rfl⟩
  · rcases capPulse_delivery c (classify c (tact - cap.lastEdgeTact)) { cap with lastEdgeTact := tact } sink with
      ⟨cap', hq⟩ | ⟨hphase, hk, hb, hd⟩
    · exact .inl (by rw [hq]; exact ⟨rfl, rfl⟩)
    · exact .inr ⟨hphase, hk, hb, hd⟩

/-- R83: the only block a completion delivers is the captured one. -/
theorem eq_capturedBlock_of_mem {c : Config} {cap : CapState} {sink : SinkState} {blk : DataBlock}
    (h : .appendBlock blk ∈ (capDeliver c cap sink).emitted) : blk = capturedBlock c cap := by
  by_cases hfirst : cap.blockCount = 0
  · rw [capDeliver_first hfirst, nameSuggestion] at h
    split_ifs at h <;> simpa using h
  · rw [capDeliver_later hfirst] at h
    simpa using h

/-- Settles O40: of all that a MICWR can do only an edge emits, and of all edges only a whole block's terminator. -/
theorem noPartialBlockDelivered : Obligations.NoPartialBlockDelivered := by
  intro s t tact level emitted blk hexec hevents hmem
  obtain ⟨es, h⟩ := exec_next hexec
  obtain rfl : es = emitted := List.append_cancel_left (h.events.symm.trans hevents)
  have hstep := h.session
  generalize s.m = m, t.m = m' at hstep ⊢
  cases hstep with
  | query hi => simp at hi
  | event he => cases he
  | stays => simp at hmem
  | @micEdge _ _ cap sink a _ ha =>
    rcases capEdge_delivery ha with ⟨hquiet, -⟩ | ⟨hphase, hk, hb, rfl⟩
    · rw [hquiet] at hmem
      simp at hmem
    · obtain ⟨hoffset, hprev⟩ := atByteBoundary_iff.mp hb
      exact ⟨cap, sink, rfl, hphase, hoffset, hprev, hk, by rw [eq_capturedBlock_of_mem hmem]; rfl⟩

/-! ## The output streams (R93) -/

/-- R93: where the streams stand after further events. -/
def streamFrom (p : StreamPhase) (es : List OutputEvent) : Option StreamPhase :=
  es.foldl (fun p e => p.bind (·.next e)) (some p)

theorem streamPhase_append {l es : List OutputEvent} {p : StreamPhase} (h : streamPhase l = some p) :
    streamPhase (l ++ es) = streamFrom p es := by
  rw [streamPhase, List.foldl_append]
  exact congrArg (es.foldl _) h

/-- R93: ending a session brings the streams back between sessions, with `finalize` exactly after blocks. -/
theorem streamFrom_endEvents {m : Session} : streamFrom (sessionStream m) (endEvents m) = some .idle := by
  cases m with
  | passive | load => rfl
  | save cap sink =>
    rw [sessionStream, endEvents]
    cases sink.fileCreated <;> rfl

/-- R93: a completion takes the streams to `blocks`, through `createFile` and at most one `setName` when it is the first. -/
theorem streamFrom_capDeliver {c : Config} {cap cap0 : CapState} {sink : SinkState}
    (hfile : sink.fileCreated = true ↔ 1 ≤ cap.blockCount) :
    streamFrom (sessionStream (.save cap0 sink)) (capDeliver c cap sink).emitted =
      some (sessionStream (.save (capDeliver c cap sink).cap (capDeliver c cap sink).sink)) := by
  by_cases hfirst : cap.blockCount = 0
  · have hno : sink.fileCreated = false := by
      rw [← Bool.not_eq_true, hfile]
      omega
    rw [capDeliver_first hfirst, sessionStream, sessionStream, hno, nameSuggestion]
    cases headerShaped c cap.buffer <;> rfl
  · have hyes : sink.fileCreated = true := hfile.mpr (by omega)
    rw [capDeliver_later hfirst, sessionStream, sessionStream, hyes]
    rfl

/-- R93: every session step of FETCH, EARRD and MICWR keeps the streams in order. -/
theorem sessionStep_streams {c : Config} {i : Instr} {m m' : Session} {es : List OutputEvent}
    (h : SessionStep c i m m' es) (hi : (timedTact i).isSome = true) (hinv : SessionInv c m) :
    streamFrom (sessionStream m) es = some (sessionStream m') := by
  cases h with
  | enterLoad | enterSave => rfl
  | query | stays => rfl
  | ends => exact streamFrom_endEvents
  | micEdge _ ha =>
    rcases capEdge_delivery ha with ⟨hquiet, hsink⟩ | ⟨-, -, -, rfl⟩
    · rw [hquiet, hsink]
      rfl
    · exact streamFrom_capDeliver hinv.fileIffBlock
  | @event i e he => cases i <;> cases he <;> simp [timedTact] at hi
  | reset | signal | newEngine | initplay | capInit | edge | complete => simp [timedTact] at hi

/-- Settles O52: the events of a timed operation continue the order; RESET leaves none after the cut. -/
theorem hostOperationsKeepTheStreamsInOrder : Obligations.HostOperationsKeepTheStreamsInOrder := by
  constructor
  · intro i s t n hi hinv hn hstreams hexec
    obtain ⟨es, h⟩ := exec_next hexec
    rw [State.StreamsInOrderSince, h.events, List.length_append, List.drop_append_of_le_length hn,
      streamPhase_append hstreams]
    exact ⟨Nat.le_add_right_of_le hn, sessionStep_streams h.session hi ((inv_iff s).mp hinv)⟩
  · intro s t hexec
    cases hexec
    refine ⟨rfl, ?_⟩
    rw [State.StreamsInOrderSince, List.drop_length]
    rfl

/-! ## Completeness of the host operations (R11, R86) -/

/-- R88 to R90: a FETCH whose tact does not decrease answers in every mode. -/
theorem fetch_answers {s : State} {pc tact : Nat} (ht : s.clk.last ≤ tact) : ∃ t, exec (.fetch pc tact) s = .next t := by
  cases hm : s.m with
  | passive =>
    obtain ⟨t, h, -⟩ := exec_fetch_passive_session pc hm ht
    exact ⟨t, h⟩
  | load seq eng =>
    rw [exec_fetch_load pc hm ht, fetchLoad]
    split_ifs <;> exact ⟨_, rfl⟩
  | save cap sink =>
    rw [exec_fetch_save pc hm ht, fetchSave]
    simp only
    split_ifs <;> exact ⟨_, rfl⟩

/-- R91: an EARRD answers from every state that host operations keep. -/
theorem earrd_answers {s : State} {tact : Nat} (hkinds : s.cfg.TapeKindsSpecified) (hinv : s.Inv) (hhost : s.HostInv)
    (ht : s.clk.last ≤ tact) : ∃ t, exec (.earrd tact) s = .next t := by
  by_cases hmode : s.mode = .load
  · obtain ⟨seq, eng, hm⟩ := exists_load_of_mode hmode
    rw [inv_iff, hm] at hinv
    rw [hostInv_iff, hm] at hhost
    obtain ⟨hstart, hbound⟩ := hhost
    obtain ⟨a, ha, -⟩ := seqQuery_answers hkinds hinv hbound (hstart.trans ht)
    rw [exec_earrd_load hm ht, exec_seqGetearbit_of (s := { s with clk := { last := tact } }) tact hm]
    simp only [ha, orRefuse_ok]
    exact ⟨_, rfl⟩
  · exact ⟨_, exec_earrd_resting hmode ht⟩

/-- R74: an edge not below the last one answers, and is then the last one at most. -/
theorem capEdge_answers {c : Config} {cap : CapState} {tact : Nat} (sink : SinkState) (ht : cap.lastEdgeTact ≤ tact) :
    ∃ a, capEdge c cap sink tact = .ok a := by
  by_cases herr : cap.phase = .error
  · exact ⟨_, capEdge_error herr⟩
  · exact ⟨_, capEdge_of herr ht⟩

/-- R92: a MICWR answers from every state that host operations keep. -/
theorem micwr_answers {s : State} {tact : Nat} (level : Level) (hhost : s.HostInv) (ht : s.clk.last ≤ tact) :
    ∃ t, exec (.micwr tact level) s = .next t := by
  by_cases hmode : s.mode = .save
  · obtain ⟨cap, sink, hm⟩ := exists_save_of_mode hmode
    rw [hostInv_iff, hm] at hhost
    by_cases hlevel : level = cap.micLevel
    · subst hlevel
      exact ⟨_, exec_micwr_repeated hm ht⟩
    · obtain ⟨a, ha⟩ := capEdge_answers (c := s.cfg) (cap := { cap with micLevel := level }) sink
        (Nat.le_trans hhost ht)
      rw [exec_micwr_edge hm ht hlevel]
      exact ⟨_, exec_capOnedge_of_ok level rfl ha⟩
  · exact ⟨_, exec_micwr_ignored level hmode ht⟩

/-- R24: the last edge is at the edge's tact or before it. -/
theorem capEdge_lastEdge {c : Config} {cap : CapState} {sink : SinkState} {tact : Nat} {a : CapAnswer}
    (h : capEdge c cap sink tact = .ok a) (ht : cap.lastEdgeTact ≤ tact) : a.cap.lastEdgeTact ≤ tact := by
  obtain ⟨-, rfl⟩ | ⟨-, -, rfl⟩ := capEdge_ok h
  · exact ht
  · rw [capPulse_withEdge]

/-- What host operations keep besides the invariant, step by step: the clock is the operation's tact, which bounds every
reference tact. -/
theorem sessionStep_hostInv {c : Config} {i : Instr} {m m' : Session} {es : List OutputEvent} {last tact : Nat}
    (h : SessionStep c i m m' es) (hkinds : c.TapeKindsSpecified) (hi : timedTact i = some tact) (hle : last ≤ tact)
    (hinv : SessionInv c m) (hhost : SessionHostInv last m) : SessionHostInv tact m' := by
  cases h with
  | enterLoad | enterSave => cases hi; simp [SessionHostInv, seqStart, engFresh, capFresh]
  | ends => trivial
  | query hq ha =>
    rcases hq with rfl | rfl <;> cases hi
    obtain ⟨hstart, hbound⟩ := hhost
    obtain ⟨a', ha', hbound', hstart'⟩ := seqQuery_answers hkinds hinv hbound (hstart.trans hle)
    obtain rfl := Except.ok.inj (ha.symm.trans ha')
    exact ⟨hstart', hbound'⟩
  | micEdge _ ha =>
    cases hi
    exact capEdge_lastEdge ha (Nat.le_trans hhost hle)
  | stays =>
    cases m with
    | passive => trivial
    | load => exact ⟨hhost.1.trans hle, hhost.2⟩
    | save => exact Nat.le_trans hhost hle
  | @event i e he => cases i <;> cases he <;> simp [timedTact] at hi
  | reset | signal | newEngine | initplay | capInit | edge | complete => simp [timedTact] at hi

/-- Settles O14: each host operation answers, and what it performs keeps the two invariants. -/
theorem hostOperationsComplete : Obligations.HostOperationsComplete := by
  intro s i hwf hinv hhost hi ht
  have timedCase : ∀ tact, timedTact i = some tact → (∃ t, exec i s = .next t) →
      ∃ t, exec i s = .next t ∧ t.Inv ∧ t.HostInv ∧ t.clk.last = (timedTact i).getD 0 := by
    rintro tact htact ⟨t, hexec⟩
    obtain ⟨es, h⟩ := exec_next hexec
    have hclk : t.clk.last = tact := by rw [h.clk, clkAfter, htact]
    refine ⟨t, hexec, performed_keeps_inv h hinv, ?_, by rw [hclk, htact]; rfl⟩
    rw [hostInv_iff, hclk]
    exact sessionStep_hostInv h.session hwf.2 htact (ht tact htact) ((inv_iff s).mp hinv) ((hostInv_iff s).mp hhost)
  cases i with
  | reset => exact ⟨_, rfl, trivial, trivial, rfl⟩
  | fetch pc tact => exact timedCase tact rfl (fetch_answers (ht tact rfl))
  | earrd tact => exact timedCase tact rfl (earrd_answers hwf.2 hinv hhost (ht tact rfl))
  | micwr tact level => exact timedCase tact rfl (micwr_answers level hhost (ht tact rfl))
  | _ => cases hi

end Sys2Proof.Machine
end

section
/-! SUPPORT. O41, O45 to O47: the line code's closed forms. The frame by pulse number, the levels by parity, the signal's
length by counting bits, and the name field of a header record (R45 to R52). -/

namespace Sys2Proof

open Machine

variable {c : Config} {b : DataBlock}

/-! ## Levels (R47) -/

theorem pulseLevel_of_odd {k : Nat} (h : (b.pilotPulseCount + k) % 2 = 1) : pulseLevel b k = high := by
  simp [pulseLevel, h]

theorem pulseLevel_of_even {k : Nat} (h : (b.pilotPulseCount + k) % 2 = 0) : pulseLevel b k = low := by
  simp [pulseLevel, h]

/-- Settles O46: the level is the parity of the pilot count and the pulse's number. -/
theorem pulseLevelsOfTheFrame : Obligations.PulseLevelsOfTheFrame := by
  intro b
  refine ⟨pulseLevel_succ b, ?_, ?_, fun q => ⟨?_, ?_⟩, ?_, fun hpilot => ?_⟩
  · exact pulseLevel_of_even (by omega)
  · exact pulseLevel_of_odd (by omega)
  · exact pulseLevel_of_even (by omega)
  · exact pulseLevel_of_odd (by omega)
  · exact pulseLevel_of_even (by unfold nPulses; omega)
  · exact pulseLevel_of_odd (by omega)

/-! ## The frame (R46, R48) -/

theorem tapeRead_of {i : Nat} (h : c.tape[i]? = some b) (j : Nat) : tapeRead c i j = b.payload[j]? := by
  simp only [tapeRead, h]

/-- Settles O45: the parts of the frame, the data pulses by the bits of the payload. -/
theorem frameByPulseNumber : Obligations.FrameByPulseNumber := by
  intro c i b hb
  refine ⟨frame_length b, fun k => frame_pilot, frame_sync1 b, frame_sync2 b, fun m hm => ?_, frame_term b⟩
  obtain ⟨v, hv, hpulse⟩ := dataPulses_getElem? hm
  exact ⟨v, by rw [tapeRead_of hb, hv], by rw [frame_data hm, hpulse]⟩

/-! ## The length of the signal (R50) -/

/-- The pulses of a list of bits last twice a half-pulse for each bit. -/
theorem sum_bitPulses (c : Config) (bits : List Bool) : ((bits.flatMap bitPulses).map (pulseLength c)).sum =
    2 * (bits.count false * c.bit0PL + bits.count true * c.bit1PL) := by
  induction bits with
  | nil => simp
  | cons bit bits ih =>
    rw [List.flatMap_cons, List.map_append, List.sum_append, ih]
    cases bit <;> simp [bitPulses, bitSymbol, pulseLength, symbolLength] <;> ring

theorem dataPulses_eq_bits (payload : List Byte) : dataPulses payload = (payload.flatMap byteBits).flatMap bitPulses :=
  List.flatMap_assoc.symm

/-- R50: the data pulses by the counts of their bits. -/
theorem sum_dataPulses (c : Config) (payload : List Byte) : ((dataPulses payload).map (pulseLength c)).sum =
    2 * (zeros payload * c.bit0PL + ones payload * c.bit1PL) := by
  rw [dataPulses_eq_bits, sum_bitPulses]
  rfl

theorem length_flatMap_byteBits (payload : List Byte) : (payload.flatMap byteBits).length = 8 * payload.length := by
  induction payload with
  | nil => rfl
  | cons v vs ih =>
    rw [List.flatMap_cons, List.length_append, byteBits_length, ih, List.length_cons]
    omega

/-- Settles O47: the frame's parts summed, the data pulses by their bits. -/
theorem signalLengthByBitCounts : Obligations.SignalLengthByBitCounts := by
  intro c b
  refine ⟨?_, (pulseStart_nPulses c b).symm, ?_⟩
  · simp only [sigTacts, frameDurations, frame, List.map_append, List.sum_append, sum_dataPulses, List.map_replicate,
      List.sum_replicate, List.map_cons, List.map_nil, List.sum_cons, List.sum_nil, pulseLength, symbolLength,
      smul_eq_mul]
    ring
  · rw [ones, zeros, List.count_true_add_count_false, length_flatMap_byteBits]

/-! ## The header record (R52) -/

/-- R52: the exclusive-or of all bytes does not depend on the end it begins from. -/
theorem headerShaped_iff {p : List Byte} : headerShaped c p = true ↔
    p.length = c.headerLen ∧ p[0]? = some 0x00 ∧ p.foldr (fun v x => v ^^^ x) 0x00 = 0x00 := by
  have hfold : p.foldl (· ^^^ ·) (0 : Byte) = p.foldr (fun v x => v ^^^ x) 0x00 :=
    List.foldl_eq_foldr
  simp only [headerShaped, hfold, Bool.and_eq_true, beq_iff_eq, List.head?_eq_getElem?, and_assoc]

theorem nameField_getElem? (p : List Byte) (i : Nat) :
    (nameField c p)[i]? = if i < c.nameLen then p[c.nameOffset + i]? else none := by
  rw [nameField, List.getElem?_take, List.getElem?_drop]

theorem nameField_length {p : List Byte} (hfits : c.HeaderShapeFits) (hlen : p.length = c.headerLen) :
    (nameField c p).length = c.nameLen := by
  obtain ⟨hinside, -⟩ := hfits
  rw [nameField, List.length_take, List.length_drop]
  omega

/-- R52: trimming cuts exactly spaces from the end. -/
theorem trimTrailingSpaces_append (field : List Byte) :
    ∃ k, field = trimTrailingSpaces field ++ List.replicate k 0x20 := by
  refine ⟨(field.rtakeWhile (· == 0x20)).length, ?_⟩
  have hspaces : field.rtakeWhile (· == 0x20) = List.replicate (field.rtakeWhile (· == 0x20)).length 0x20 :=
    List.eq_replicate_of_mem fun v hv => by simpa using List.mem_rtakeWhile_imp hv
  rw [← hspaces]
  exact (List.rdropWhile_append_rtakeWhile ..).symm

/-- R52: what is left does not end in a space. -/
theorem trimTrailingSpaces_getLast? (field : List Byte) : (trimTrailingSpaces field).getLast? ≠ some 0x20 := by
  intro hlast
  obtain ⟨hne, hspace⟩ := List.mem_getLast?_eq_getLast (Option.mem_def.mpr hlast)
  exact List.rdropWhile_last_not (· == 0x20) field hne (beq_iff_eq.mpr hspace.symm)

/-- R52: different bytes are different characters. -/
theorem charOfByte_injective : Function.Injective charOfByte := by
  intro v w h
  exact BitVec.eq_of_toNat_eq (by rw [← charOfByte_toNat, h, charOfByte_toNat])

/-- Settles O41: the fields by index, and the trimmed field read as characters. -/
theorem nameIsTheTrimmedField : Obligations.NameIsTheTrimmedField := by
  intro c p
  have hspace : charOfByte 0x20 = ' ' := by decide
  refine ⟨headerShaped_iff, nameField_getElem? p, fun hfits h => nameField_length hfits (headerShaped_iff.mp h).1, ?_, ?_⟩
  · obtain ⟨k, hk⟩ := trimTrailingSpaces_append (nameField c p)
    refine ⟨k, ?_⟩
    conv_lhs => rw [hk]
    rw [List.map_append, List.map_replicate, hspace, nameOf]
  · rw [nameOf, List.getLast?_map, ← hspace]
    intro hlast
    obtain ⟨v, hv, hchar⟩ := Option.map_eq_some_iff.mp hlast
    rw [charOfByte_injective hchar] at hv
    exact trimTrailingSpaces_getLast? _ hv

end Sys2Proof
end

section
/-! SUPPORT. O16, O17, O19, O56, O57: the playback engine. One rule for ENG.SIGNALAT, the phase as a function of the tact, and
the source's loop, whose registers stand at the pulse that holds the tact (R60 to R65). -/

namespace Sys2Proof

open Machine

variable {c : Config} {b : DataBlock}

/-! ## The phase by tact (R61, R63) -/

/-- Of the pulse that holds a tact, being before the `j`-th is beginning before the `j`-th does. -/
theorem pulse_lt_iff {k r : Nat} (hlo : pulseStart c b k ≤ r) (hhi : r < pulseStart c b (k + 1)) (j : Nat) :
    k < j ↔ r < pulseStart c b j := by
  constructor
  · intro h
    exact hhi.trans_le (pulseStart_mono c b h)
  · intro h
    by_contra hk
    exact absurd (pulseStart_mono c b (Nat.not_lt.mp hk)) (by omega)

/-- R46, R61: the rank of the phase changes at the boundaries of the frame's parts. -/
theorem signal_rank (c : Config) (b : DataBlock) (r : Nat) : (signal c b r).1.rank =
    if totTacts c b ≤ r then 6
    else if sigTacts c b ≤ r then 5
    else if r < pulseStart c b b.pilotPulseCount then 1
    else if r < pulseStart c b (b.pilotPulseCount + 2) then 2
    else if r < pulseStart c b (b.pilotPulseCount + 2 + 16 * b.payload.length) then 3
    else 4 := by
  have htot := sigTacts_le_totTacts c b
  rcases signal_cases c b r with ⟨h, e⟩ | ⟨h1, h2, e⟩ | ⟨k, p, hr, hp, hlo, hhi, e⟩
  · rw [e, if_pos h]
    rfl
  · rw [e, if_neg (by omega), if_pos h1]
    rfl
  · rw [e, if_neg (by omega), if_neg (by omega), frame_phase hp]
    simp only [← pulse_lt_iff hlo hhi]
    split_ifs <;> rfl

/-- R63: the rank never decreases. -/
theorem signal_rank_mono (c : Config) (b : DataBlock) {r1 r2 : Nat} (h : r1 ≤ r2) :
    (signal c b r1).1.rank ≤ (signal c b r2).1.rank := by
  have htot := sigTacts_le_totTacts c b
  rw [signal_rank, signal_rank]
  split_ifs <;> omega

theorem eq_of_rank_eq {p q : EngPhase} (h : p.rank = q.rank) : p = q := by
  cases p <;> cases q <;> cases h <;> rfl

theorem eq_iff_rank_eq {p q : EngPhase} : p = q ↔ p.rank = q.rank :=
  ⟨congrArg _, eq_of_rank_eq⟩

/-- R50: the data pulses end before the signal does. -/
theorem pulseStart_le_sigTacts (c : Config) (b : DataBlock) {k : Nat} (h : k ≤ nPulses b) :
    pulseStart c b k ≤ sigTacts c b :=
  pulseStart_nPulses c b ▸ pulseStart_mono c b h

/-- R63: the phase is `Data` exactly during the data pulses. -/
theorem signal_data_iff {r : Nat} : (signal c b r).1 = .data ↔
    pulseStart c b (b.pilotPulseCount + 2) ≤ r ∧
    r < pulseStart c b (b.pilotPulseCount + 2 + 16 * b.payload.length) := by
  have htot := sigTacts_le_totTacts c b
  have hsig := pulseStart_le_sigTacts c b (k := b.pilotPulseCount + 2 + 16 * b.payload.length)
    (by unfold nPulses; omega)
  have hpilot := pulseStart_mono c b (show b.pilotPulseCount ≤ b.pilotPulseCount + 2 by omega)
  have hrank : EngPhase.data.rank = 3 := rfl
  rw [eq_iff_rank_eq, signal_rank, hrank]
  split_ifs <;> omega

/-- R63: the phase is `Pause` exactly from the end of the terminator to the end of the pause. -/
theorem signal_pause_iff {r : Nat} : (signal c b r).1 = .pause ↔ sigTacts c b ≤ r ∧ r < totTacts c b := by
  have hrank : EngPhase.pause.rank = 5 := rfl
  rw [eq_iff_rank_eq, signal_rank, hrank]
  split_ifs <;> omega

/-- R61: a queried engine has started. -/
theorem signal_started (c : Config) (b : DataBlock) (r : Nat) :
    EngPhase.notStarted.rank < (signal c b r).1.rank := by
  rw [signal_rank]
  split_ifs <;> exact Nat.succ_pos _

end Sys2Proof

namespace Sys2Proof.Machine

/-! ## ENG.SIGNALAT (R61, R65) -/

section Signalat
variable {s : State} {seq : SeqState} {eng : EngState} {b : DataBlock} {tact : Nat}

/-- The engine after a query at `tact` of the block `b`. -/
def engAt (c : Config) (b : DataBlock) (eng : EngState) (tact : Nat) : EngState :=
  { eng with phase := (signal c b (tact - eng.startTact)).1, level := (signal c b (tact - eng.startTact)).2 }

/-- R61: from the start on ENG.SIGNALAT answers the closed form of the bound block. -/
theorem exec_engSignalat_signal (hm : s.m = .load seq eng) (hb : signalBlock s.cfg eng.block = .ok b)
    (ht : eng.startTact ≤ tact) :
    exec (.engSignalat tact) s = .next
      { s with m := .load seq (engAt s.cfg b eng tact), result := some (.level (engAt s.cfg b eng tact).level) } := by
  rw [exec_engSignalat_of tact hm, engQuery_of_signalBlock hb ht]
  rfl

theorem execAll_cons_next {s t : State} {i : Instr} {is : List Instr} (h : exec i s = .next t) :
    execAll (i :: is) s = execAll is t := by
  simp only [execAll, h]

/-- R63: a sequence of queries leaves what the last one alone would leave. -/
theorem execAll_engSignalat (hm : s.m = .load seq eng) (hb : signalBlock s.cfg eng.block = .ok b) (ts : List Nat)
    (tact : Nat) (hstart : ∀ t ∈ ts ++ [tact], eng.startTact ≤ t) :
    ∃ s', execAll ((ts ++ [tact]).map .engSignalat) s = .next s' ∧ s'.cfg = s.cfg ∧
      s'.m = .load seq (engAt s.cfg b eng tact) := by
  induction ts generalizing s eng with
  | nil =>
    have h := exec_engSignalat_signal hm hb (hstart tact (by simp))
    exact ⟨_, execAll_cons_next h, rfl, rfl⟩
  | cons t ts ih =>
    have h := exec_engSignalat_signal hm hb (hstart t (by simp))
    obtain ⟨s', hs', hcfg, hm'⟩ := ih (s := { s with
        m := .load seq (engAt s.cfg b eng t), result := some (.level (engAt s.cfg b eng t).level) })
      (eng := engAt s.cfg b eng t) rfl hb fun t' ht' => hstart t' (List.mem_cons_of_mem _ ht')
    exact ⟨s', (execAll_cons_next h).trans hs', hcfg, hm'⟩

end Signalat

/-- Settles O16: the level and the phase are the closed form's. -/
theorem signalatIsDefinedForEveryBlock : Obligations.SignalatIsDefinedForEveryBlock := by
  intro s seq eng b tact hm hb hk ht
  refine ⟨_, _, exec_engSignalat_signal hm (signalBlock_of hb hk) ht, fun h => ?_, fun h1 h2 => ?_, fun h => ?_⟩
  · simp only [signal_completed h, and_self]
  · simp only [signal_pause h1 h2, and_self]
  · obtain ⟨k, p, -, hp, hlo, hhi⟩ := pulseAt_frame h
    have hsignal := signal_pulse hp hlo hhi
    exact ⟨k, p, hp, hlo, hhi, congrArg Prod.fst hsignal, congrArg Prod.snd hsignal⟩

/-- Settles O17: the queries before `t1` leave no trace, and the rank of the phase grows with the tact. -/
theorem phaseNeverGoesBack : Obligations.PhaseNeverGoesBack := by
  intro s seq eng b ts t1 t2 hm hb hk hmono
  obtain ⟨hstart, hts⟩ := List.pairwise_cons.mp hmono
  have h12 : t1 ≤ t2 := by
    have hlast := (List.pairwise_append.mp hts).2.1
    simpa using hlast
  have hblock := signalBlock_of hb hk
  obtain ⟨s1, hs1, hcfg, hm1⟩ := execAll_engSignalat hm hblock ts t1 fun t ht => hstart t (by
    rw [List.mem_append] at ht ⊢
    exact ht.imp_right fun h => List.mem_cons.mpr (.inl (List.mem_singleton.mp h)))
  have h2 := exec_engSignalat_signal hm1 (b := b) (tact := t2) (by rwa [hcfg]) (hstart t2 (by simp))
  rw [hcfg] at h2
  exact ⟨s1, _, _, _, hs1, hm1, h2, rfl, signal_started .., signal_rank_mono s.cfg b (Nat.sub_le_sub_right h12 _),
    signal_data_iff, signal_pause_iff⟩

/-- R68: SEQ.GETEARBIT on a current standard block is refused when the engine is. -/
theorem seqQuery_of_engine_refused {c : Config} {seq : SeqState} {eng : EngState} {b : DataBlock} {tact : Nat}
    {r : Refusal} (heof : seq.eof = false) (hb : c.tape[seq.blockIndex]? = some b) (hk : b.kind = .standardData)
    (hq : engQuery c eng tact = .error r) : seqQuery c seq eng tact = .error r := by
  obtain ⟨hlt, hget⟩ := List.getElem?_eq_some_iff.mp hb
  rw [seqQuery, heof, List.drop_eq_getElem_cons hlt, hget]
  simp only [Bool.false_eq_true, if_false, seqLoop, hk, hq]

/-- R55: an engine bound to a block of the tape without a frame is refused at every tact. -/
theorem engQuery_frameless {c : Config} {eng : EngState} {b : DataBlock} (tact : Nat)
    (hb : c.tape[eng.block]? = some b) (hk : b.kind ≠ .standardData) :
    engQuery c eng tact = .error (.blockHasNoFrame b.kind) := by
  rw [engQuery, signalBlock_frameless hb hk]

/-- A refused engine refuses ENG.SIGNALAT. -/
theorem exec_engSignalat_refused {s : State} {seq : SeqState} {eng : EngState} {tact : Nat} {r : Refusal}
    (hm : s.m = .load seq eng) (hq : engQuery s.cfg eng tact = .error r) : exec (.engSignalat tact) s = .refused r := by
  rw [exec_engSignalat_of tact hm, hq, orRefuse_error]

/-- A refused sequencer refuses SEQ.GETEARBIT. -/
theorem exec_seqGetearbit_refused {s : State} {seq : SeqState} {eng : EngState} {tact : Nat} {r : Refusal}
    (hm : s.m = .load seq eng) (hq : seqQuery s.cfg seq eng tact = .error r) :
    exec (.seqGetearbit tact) s = .refused r := by
  rw [exec_seqGetearbit_of tact hm, hq, orRefuse_error]

/-- Settles O57: the engine is refused, and with it what asks it. -/
theorem blockWithoutAFrameRefused : Obligations.BlockWithoutAFrameRefused := by
  intro s seq eng b tact hm hb hk
  have hq := engQuery_frameless tact hb hk
  exact ⟨exec_engSignalat_refused hm hq, fun current heof hcurrent hstd =>
    exec_seqGetearbit_refused hm (seqQuery_of_engine_refused heof hcurrent hstd hq)⟩

/-- R74: an edge below the last one is refused, unless the phase is `Error`. -/
theorem exec_capOnedge_refused {s : State} {cap : CapState} {sink : SinkState} {tact : Nat} (level : Level)
    (hm : s.m = .save cap sink) (ht : tact < cap.lastEdgeTact) (herr : cap.phase ≠ .error) :
    exec (.capOnedge tact level) s = .refused .tactBeforeLastEdge := by
  rw [exec_capOnedge, execCapOnedge, withSave_of _ hm, capEdge, if_neg herr, if_pos ht, orRefuse_error]

/-- Settles O55: the engine's and the decoder's refusals, through every operation that asks them. -/
theorem tactBelowTheReferenceRefused : Obligations.TactBelowTheReferenceRefused := by
  constructor
  · intro s seq eng tact hm hbound ht
    have hq := engQuery_of_lt hbound ht
    refine ⟨exec_engSignalat_refused hm hq, fun b heof hb hk => ?_⟩
    have hseq := seqQuery_of_engine_refused heof hb hk hq
    refine ⟨exec_seqGetearbit_refused hm hseq, fun hclk => ?_⟩
    rw [exec_earrd_load hm hclk]
    exact exec_seqGetearbit_refused (s := { s with clk := { last := tact } }) hm hseq
  · intro s cap sink tact level hm ht herr
    refine ⟨exec_capOnedge_refused level hm ht herr, fun hclk hlevel => ?_⟩
    rw [exec_micwr_edge hm hclk hlevel]
    exact exec_capOnedge_refused (cap := { cap with micLevel := level }) level rfl ht herr

/-! ## Outside the tape (log entry 15) -/

/-- R68 outside the tape: the sequencer's pass answers, moves on nowhere, and is high when it ends the tape. -/
theorem seqQuery_outside {c : Config} {seq : SeqState} {eng : EngState} {tact : Nat} (heof : seq.eof = false)
    (hseq : c.tape.length ≤ seq.blockIndex) (heng : c.tape.length ≤ eng.block) (ht : eng.startTact ≤ tact) :
    ∃ eof phase level, seqQuery c seq eng tact =
        .ok ⟨level, { seq with eof := eof }, { eng with phase := phase, level := level }⟩ ∧
      (eof = true → level = high) := by
  have hq := engQuery_of_signalBlock (signalBlock_outside heng) ht
  rw [seqQuery, heof, List.drop_eq_nil_of_le hseq, if_neg (by simp), seqLoop, seqOutsideTape, hq]
  simp only [endOfTape]
  split_ifs with hdesc hdone
  · exact ⟨true, _, _, rfl, fun _ => rfl⟩
  · exact ⟨true, _, _, rfl, fun _ => rfl⟩
  · exact ⟨seq.eof, _, _, rfl, fun h => by simp [heof] at h⟩

/-- Settles O56: the free block's signal, and the sequencer's pass over it. -/
theorem blockOutsideTheTapeStillAnswers : Obligations.BlockOutsideTheTapeStillAnswers := by
  intro s seq eng tact hm heng ht
  refine ⟨⟨_, _, exec_engSignalat_signal hm (signalBlock_outside heng) ht, ?_, fun h => signal_resting (.inr h)⟩,
    fun heof hseq => ?_⟩
  · exact fun hphase => absurd (congrArg EngPhase.rank hphase) (Nat.ne_of_gt (signal_started ..))
  · obtain ⟨eof, phase, level, hq, hhigh⟩ := seqQuery_outside heof hseq heng ht
    refine ⟨eof, phase, level, ?_, hhigh⟩
    rw [exec_seqGetearbit_of tact hm, hq, orRefuse_ok]

end Sys2Proof.Machine
end

section
/-! SUPPORT. O19: the source's loop (R62). Its registers always stand at a pulse boundary of the frame; a query moves them to
the boundary that the tact has passed last, where the closed form of R61 stands too. -/

namespace Sys2Proof.Machine

/-- The loop's registers stand at the beginning of a pulse, or at the end of the signal. -/
structure AtBoundary (c : Config) (b : DataBlock) (t0 : Nat) (r : LoopRegs) : Prop where
  inFrame : r.pulseIndex ≤ nPulses b
  start : r.unitStart = t0 + pulseStart c b r.pulseIndex
  level : r.level = pulseLevel b r.pulseIndex

/-- They stand at the last boundary that the tact has passed. -/
structure StandsAt (c : Config) (b : DataBlock) (t0 t : Nat) (r : LoopRegs) : Prop extends AtBoundary c b t0 r where
  passed : r.unitStart ≤ t
  last : r.pulseIndex = nPulses b ∨ t < t0 + pulseStart c b (r.pulseIndex + 1)

section Loop
variable {c : Config} {b : DataBlock} {t0 t : Nat} {r : LoopRegs}

/-- R62, at ENG.NEW. -/
theorem atBoundary_init (c : Config) (b : DataBlock) (t0 : Nat) : AtBoundary c b t0 (loopInit b t0) :=
  ⟨Nat.zero_le _, rfl, rfl⟩

/-- R62: passing a boundary is standing at the next one. -/
theorem atBoundary_next {p : PulseSymbol} (h : AtBoundary c b t0 r) (hp : (frame b)[r.pulseIndex]? = some p) :
    AtBoundary c b t0 ⟨r.pulseIndex + 1, r.unitStart + pulseLength c p, !r.level⟩ := by
  refine ⟨?_, ?_, ?_⟩
  · have hlt : r.pulseIndex < (frame b).length := (List.getElem?_eq_some_iff.mp hp).1
    rwa [frame_length] at hlt
  · show r.unitStart + pulseLength c p = t0 + pulseStart c b (r.pulseIndex + 1)
    rw [h.start, pulseStart_succ hp, Nat.add_assoc]
  · show (!r.level) = pulseLevel b (r.pulseIndex + 1)
    rw [h.level, pulseLevel_succ]

/-- R62: the while loop stops at the last boundary that the tact has passed. -/
theorem loopAdvance_standsAt {ps : List PulseSymbol} (hps : ps = (frame b).drop r.pulseIndex)
    (h : AtBoundary c b t0 r) (ht : r.unitStart ≤ t) : StandsAt c b t0 t (loopAdvance c t ps r) := by
  induction ps generalizing r with
  | nil =>
    have hend : nPulses b ≤ r.pulseIndex := by simpa using hps.symm
    exact ⟨h, ht, .inl (Nat.le_antisymm h.inFrame hend)⟩
  | cons p ps ih =>
    have hp : (frame b)[r.pulseIndex]? = some p := by
      rw [← Nat.add_zero r.pulseIndex, ← List.getElem?_drop, ← hps]
      rfl
    have hrest : ps = (frame b).drop (r.pulseIndex + 1) := by
      rw [← List.tail_drop, ← hps]
      rfl
    rw [loopAdvance]
    split_ifs with hpass
    · exact ih hrest (atBoundary_next h hp) hpass
    · refine ⟨h, ht, .inr ?_⟩
      rw [pulseStart_succ hp, ← Nat.add_assoc, ← h.start]
      exact Nat.not_le.mp hpass

/-- At the end of the signal every pulse has passed. -/
theorem StandsAt.past_signal (h : StandsAt c b t0 t r) (hend : r.pulseIndex = nPulses b) : sigTacts c b ≤ t - t0 := by
  have hstart := h.start
  have hpassed := h.passed
  rw [hend, pulseStart_nPulses] at hstart
  omega

/-- Before it, the pulse at the boundary holds the tact. -/
theorem StandsAt.holds (h : StandsAt c b t0 t r) (hend : r.pulseIndex ≠ nPulses b) :
    pulseStart c b r.pulseIndex ≤ t - t0 ∧ t - t0 < pulseStart c b (r.pulseIndex + 1) := by
  have hstart := h.start
  have hpassed := h.passed
  have hlast := h.last.resolve_left hend
  omega

/-- Before it, the boundary's pulse is one of the frame. -/
theorem StandsAt.exists_pulse (h : StandsAt c b t0 t r) (hend : r.pulseIndex ≠ nPulses b) :
    ∃ p, (frame b)[r.pulseIndex]? = some p :=
  ⟨_, List.getElem?_eq_getElem (by rw [frame_length]; exact Nat.lt_of_le_of_ne h.inFrame hend)⟩

/-- R47, R61: the level at the boundary is that of the closed form. -/
theorem StandsAt.level_eq (h : StandsAt c b t0 t r) : r.level = (signal c b (t - t0)).2 := by
  rw [h.level]
  by_cases hend : r.pulseIndex = nPulses b
  · have hresting : (signal c b (t - t0)).1 = .pause ∨ (signal c b (t - t0)).1 = .completed := by
      rw [signal_pause_iff, signal_completed_iff]
      have := h.past_signal hend
      omega
    rw [hend, pulseLevel_nPulses, signal_resting (.inr hresting)]
  · obtain ⟨p, hp⟩ := h.exists_pulse hend
    obtain ⟨hlo, hhi⟩ := h.holds hend
    rw [signal_pulse hp hlo hhi]

/-- R62: a query moves the registers to the boundary that the tact has passed last, and shows the phase of the closed form. -/
theorem loopQuery_standsAt (h : AtBoundary c b t0 r) (ht : r.unitStart ≤ t) :
    ∃ r', loopQuery c b t r = (r', (signal c b (t - t0)).1) ∧ StandsAt c b t0 t r' := by
  have hstands := loopAdvance_standsAt rfl h ht
  refine ⟨loopAdvance c t ((frame b).drop r.pulseIndex) r, ?_, hstands⟩
  rw [loopQuery]
  generalize loopAdvance c t ((frame b).drop r.pulseIndex) r = r' at hstands ⊢
  by_cases hend : r'.pulseIndex = nPulses b
  · have hnone : (frame b)[r'.pulseIndex]? = none := by simp [hend]
    have hlevel : r'.level = high := by rw [hstands.level, hend, pulseLevel_nPulses]
    have hhigh : { r' with level := high } = r' := by rw [← hlevel]
    have hpast := hstands.past_signal hend
    have hstart := hstands.start
    rw [hend, pulseStart_nPulses] at hstart
    simp only [hnone, hhigh, Prod.mk.injEq, true_and]
    have htot : totTacts c b = sigTacts c b + pauseTacts c b := rfl
    have hpassed := hstands.passed
    split_ifs with hpause
    · exact (signal_pause_iff.mpr ⟨hpast, by omega⟩).symm
    · exact (signal_completed_iff.mpr (by omega)).symm
  · obtain ⟨p, hp⟩ := hstands.exists_pulse hend
    obtain ⟨hlo, hhi⟩ := hstands.holds hend
    simp only [hp, signal_pulse hp hlo hhi]

/-- R62: after any non-decreasing queries the registers stand at a boundary that every later tact has passed. -/
theorem atBoundary_foldl (ts : List Nat) {last : Nat} (h : AtBoundary c b t0 r) (hr : r.unitStart ≤ last)
    (hmono : (last :: (ts ++ [t])).Pairwise (· ≤ ·)) :
    AtBoundary c b t0 (ts.foldl (fun r t => (loopQuery c b t r).1) r) ∧
      (ts.foldl (fun r t => (loopQuery c b t r).1) r).unitStart ≤ t := by
  induction ts generalizing r last with
  | nil => exact ⟨h, hr.trans (List.rel_of_pairwise_cons hmono (by simp))⟩
  | cons u ts ih =>
    obtain ⟨hle, hmono'⟩ := List.pairwise_cons.mp hmono
    obtain ⟨r', hq, hstands⟩ := loopQuery_standsAt h (hr.trans (hle u (by simp)))
    rw [List.foldl_cons, hq]
    exact ih hstands.toAtBoundary hstands.passed hmono'

/-- R22: a byte masked with `0x80 >> k` is zero exactly when its bit `7 - k` is. -/
theorem and_bitMask_ne_zero (v : Byte) {k : Nat} (hk : k < 8) : (v &&& (0x80#8 >>> k) != 0) = v.getLsbD (7 - k) := by
  have hmask : 0x80#8 >>> k = BitVec.twoPow 8 (7 - k) := by interval_cases k <;> rfl
  have hne : BitVec.twoPow 8 (7 - k) ≠ 0#8 := by interval_cases k <;> decide
  rw [hmask, BitVec.and_twoPow]
  cases v.getLsbD (7 - k)
  · rfl
  · simpa using hne

/-- R62: during the data pulses the byte and the mask are those of the pulse's bit. -/
theorem StandsAt.data (h : StandsAt c b t0 t r) (hdata : (signal c b (t - t0)).1 = .data) :
    ∃ v, b.payload[r.byteIndex b]? = some v ∧
      (frame b)[r.pulseIndex]? = some (bitSymbol (v &&& r.bitMask b != 0)) := by
  have hend : r.pulseIndex ≠ nPulses b := by
    intro hend
    have hlt := (signal_data_iff.mp hdata).2
    have hle := pulseStart_le_sigTacts c b (k := b.pilotPulseCount + 2 + 16 * b.payload.length) (by unfold nPulses; omega)
    have := h.past_signal hend
    omega
  obtain ⟨hlo, hhi⟩ := h.holds hend
  obtain ⟨h1, h2⟩ := signal_data_iff.mp hdata
  rw [← pulse_lt_iff hlo hhi] at h2
  rw [← Nat.not_lt, ← pulse_lt_iff hlo hhi] at h1
  obtain ⟨m, hm⟩ : ∃ m, r.pulseIndex = b.pilotPulseCount + 2 + m := ⟨r.pulseIndex - (b.pilotPulseCount + 2), by omega⟩
  obtain ⟨v, hv, hpulse⟩ := dataPulses_getElem? (payload := b.payload) (m := m) (by omega)
  have hindex : r.pulseIndex - b.pilotPulseCount - 2 = m := by omega
  refine ⟨v, by rw [LoopRegs.byteIndex, hindex, hv], ?_⟩
  rw [LoopRegs.bitMask, hindex, and_bitMask_ne_zero v (Nat.mod_lt _ (by omega)), hm, frame_data (by omega), hpulse]

end Loop

/-- Settles O19: the last query finds the registers at a boundary and leaves them at the one the tact has passed last. -/
theorem loopAgreesWithClosedForm : Obligations.LoopAgreesWithClosedForm := by
  intro c b t0 ts t hmono
  obtain ⟨hbefore, hpassed⟩ := atBoundary_foldl ts (atBoundary_init c b t0) le_rfl hmono
  obtain ⟨r, hq, hstands⟩ := loopQuery_standsAt hbefore hpassed
  refine ⟨r, _, hq, by rw [hstands.level_eq], hstands.start, fun hsig => ?_, fun hsig => ?_, hstands.data⟩
  · by_contra hend
    have hhi := (hstands.holds hend).2
    have hle := pulseStart_le_sigTacts c b (k := r.pulseIndex + 1) (Nat.lt_of_le_of_ne hstands.inFrame hend)
    omega
  · exact hstands.holds fun hend => absurd (hstands.past_signal hend) (Nat.not_le.mpr hsig)

end Sys2Proof.Machine
end

section
/-! SUPPORT. O21 to O23: the tape sequencer. A query over specified kinds answers; one that meets another kind is refused after
the blocks that it passes; and over any sequence of queries the registers stand where R70's closed form says. -/

namespace Sys2Proof.Machine

section Sequencer
variable {c : Config} {seq : SeqState} {eng : EngState} {b : DataBlock} {a : EarAnswer} {rest : List DataBlock} {t0 tact : Nat}

/-! ## One query (R66, R68) -/

/-- R68: at end of tape a query changes nothing, and whoever ends at end of tape answers high. -/
theorem seqQuery_eof (h : seqQuery c seq eng tact = .ok a) :
    (seq.eof = true → a.seq = seq ∧ a.eng = eng) ∧ (a.seq.eof = true → a.level = high) := by
  rcases seqQuery_ok h with ⟨-, rfl⟩ | ⟨heof, hloop⟩
  · exact ⟨fun _ => ⟨rfl, rfl⟩, fun _ => rfl⟩
  · refine ⟨fun h => by simp [heof] at h, fun h => ?_⟩
    rcases (seqLoop_ok rfl hloop).eofAtLast with hsame | ⟨-, hhigh, -⟩
    · simp [hsame, heof] at h
    · exact hhigh

/-- R66: the loop refuses a block of another kind. -/
theorem seqLoop_unspecified (h1 : b.kind ≠ .standardData) (h2 : b.kind ≠ .description) :
    seqLoop c tact (b :: rest) seq eng = .error (.blockKindNotSpecified b.kind) := by
  cases hk : b.kind with
  | standardData => exact absurd hk h1
  | description => exact absurd hk h2
  | pureTone | pureData | other => simp only [seqLoop, hk]

/-- R68: the loop passes a Description, and a standard block that has completed, to the block after it. -/
theorem seqLoop_passes (hb : c.tape[eng.block]? = some b) (hrest : rest ≠ [])
    (hpass : b.kind = .description ∨ b.kind = .standardData ∧ eng.startTact + totTacts c b ≤ tact) :
    seqLoop c tact (b :: rest) seq eng =
      seqLoop c tact rest { seq with blockIndex := seq.blockIndex + 1 }
        (engFresh (seq.blockIndex + 1) (eng.startTact + (slotTacts c b).getD 0)) := by
  obtain ⟨b', rest', rfl⟩ := List.exists_cons_of_ne_nil hrest
  rcases hpass with hk | ⟨hk, hdone⟩
  · rw [seqLoop, hk]
    simp only [slotTacts, hk, Option.getD_some, Nat.add_zero]
  · have hpast : totTacts c b ≤ tact - eng.startTact := by omega
    rw [seqLoop, hk]
    simp only [engQuery_of hb hk (by omega : eng.startTact ≤ tact), signal_completed hpast, if_true, slotTacts, hk,
      Option.getD_some]

theorem slotStart_add (c : Config) (t0 j : Nat) : slotStart c t0 j = t0 + slotStart c 0 j := by
  simp [slotStart]

/-- R66: the loop refuses a block of another kind after the blocks that it passes. -/
theorem seqLoop_refuses {blocks : List DataBlock} {j : Nat} (hblocks : blocks = c.tape.drop seq.blockIndex)
    (hle : seq.blockIndex ≤ j) (hb : c.tape[j]? = some b) (h1 : b.kind ≠ .standardData) (h2 : b.kind ≠ .description)
    (hbound : seq.blockIndex < j → eng.block = seq.blockIndex)
    (hpass : ∀ i before, seq.blockIndex ≤ i → i < j → c.tape[i]? = some before →
      before.kind = .description ∨ before.kind = .standardData ∧
        slotStart c eng.startTact (i + 1) ≤ tact + slotStart c 0 seq.blockIndex) :
    seqLoop c tact blocks seq eng = .error (.blockKindNotSpecified b.kind) := by
  have hj : j < c.tape.length := (List.getElem?_eq_some_iff.mp hb).1
  induction blocks generalizing seq eng with
  | nil => simp at hblocks; omega
  | cons b0 rest ih =>
    have hget : c.tape[seq.blockIndex]? = some b0 := by
      rw [← Nat.add_zero seq.blockIndex, ← List.getElem?_drop, ← hblocks]
      rfl
    have hrest : rest = c.tape.drop (seq.blockIndex + 1) := by
      rw [← List.tail_drop, ← hblocks]
      rfl
    rcases Nat.eq_or_lt_of_le hle with heq | hlt
    · obtain rfl : b0 = b := Option.some.inj (hget.symm.trans (heq ▸ hb))
      exact seqLoop_unspecified h1 h2
    · have hslot := slotStart_succ (t0 := 0) hget
      have hhere := hpass seq.blockIndex b0 le_rfl hlt hget
      rw [slotStart_add, hslot] at hhere
      rw [seqLoop_passes (hbound hlt ▸ hget) (by rw [hrest, Ne, List.drop_eq_nil_iff]; omega)
        (hhere.imp_right fun ⟨hk, hdone⟩ => ⟨hk, by simp only [slotTacts, hk, Option.getD_some] at hdone; omega⟩)]
      refine ih (seq := { seq with blockIndex := seq.blockIndex + 1 })
        (eng := engFresh (seq.blockIndex + 1) (eng.startTact + (slotTacts c b0).getD 0)) hrest hlt
        (fun _ => rfl) fun i before hi hij hbefore => (hpass i before (by simp only at hi; omega) hij hbefore).imp_right
          fun ⟨hk, hdone⟩ => ⟨hk, ?_⟩
      rw [slotStart_add] at hdone ⊢
      simp only [engFresh, hslot]
      omega

/-! ## A session of queries (R70) -/

/-- Where the registers of a session begun at `t0` stand between queries, `last` being the last tact. -/
structure Playing (c : Config) (t0 last : Nat) (seq : SeqState) (eng : EngState) : Prop where
  bound : eng.block = seq.blockIndex
  atSlot : eng.startTact = slotStart c t0 seq.blockIndex
  started : eng.startTact ≤ last
  inTape : seq.eof = false → seq.blockIndex < c.tape.length
  ended : seq.eof = true → slotStart c t0 c.tape.length ≤ last

/-- R67: where SEQ.INITPLAY leaves them. -/
theorem playing_start (c : Config) (t0 : Nat) : Playing c t0 t0 (seqStart c t0).1 (seqStart c t0).2 := by
  rw [seqStart_eq]
  refine ⟨rfl, rfl, le_rfl, fun h => ?_, fun h => ?_⟩
  · exact List.length_pos_iff.mpr (of_decide_eq_false h)
  · rw [of_decide_eq_true h]
    rfl

/-- R70: a query at a later tact answers as the closed form says. -/
theorem seqQuery_closed {last : Nat} (hkinds : c.TapeKindsSpecified) (h : Playing c t0 last seq eng)
    (hle : last ≤ tact) : ∃ a, seqQuery c seq eng tact = .ok a ∧ ClosedAnswer c t0 tact a := by
  have hstart := h.started.trans hle
  cases heof : seq.eof with
  | true =>
    exact ⟨⟨high, seq, eng⟩, by rw [seqQuery, if_pos heof],
      h.bound, h.atSlot, hstart, .inl ⟨heof, rfl, (h.ended heof).trans hle⟩⟩
  | false =>
    rw [seqQuery, if_neg (by simp [heof])]
    exact seqLoop_closed hkinds rfl (by rw [Ne, List.drop_eq_nil_iff]; exact Nat.not_le.mpr (h.inTape heof)) heof h.bound
      h.atSlot hstart

/-- R70: and leaves the registers standing where they should. -/
theorem ClosedAnswer.playing (h : ClosedAnswer c t0 tact a) : Playing c t0 tact a.seq a.eng := by
  refine ⟨h.bound, h.atSlot, h.started, fun heof => ?_, fun heof => ?_⟩
  · rcases h.answer with ⟨h', -, -⟩ | ⟨-, b, ⟨hb, -⟩, -⟩
    · simp [heof] at h'
    · exact (List.getElem?_eq_some_iff.mp hb).1
  · rcases h.answer with ⟨-, -, hend⟩ | ⟨h', -⟩
    · exact hend
    · simp [heof] at h'

/-- R70: at most one slot holds a tact, and none does from the tape's end on. -/
theorem slotHolds_unique {b1 b2 : DataBlock} {j k : Nat} (h1 : SlotHolds c t0 tact j b1) (h2 : SlotHolds c t0 tact k b2) :
    j = k := by
  obtain ⟨-, -, hlo1, hhi1⟩ := h1
  obtain ⟨-, -, hlo2, hhi2⟩ := h2
  rcases Nat.lt_trichotomy j k with h | h | h
  · have := slotStart_mono c t0 (show j + 1 ≤ k from h)
    omega
  · exact h
  · have := slotStart_mono c t0 (show k + 1 ≤ j from h)
    omega

theorem slotHolds_before_end {j : Nat} (h : SlotHolds c t0 tact j b) : tact < slotStart c t0 c.tape.length := by
  obtain ⟨hb, -, -, hhi⟩ := h
  have := slotStart_mono c t0 (show j + 1 ≤ c.tape.length from (List.getElem?_eq_some_iff.mp hb).1)
  omega

end Sequencer

/-- R70: SEQ.GETEARBIT answers as the closed form says. -/
theorem exec_seqGetearbit_closed {s : State} {seq : SeqState} {eng : EngState} {t0 last t : Nat}
    (hkinds : s.cfg.TapeKindsSpecified) (hm : s.m = .load seq eng) (h : Playing s.cfg t0 last seq eng) (hle : last ≤ t) :
    ∃ a, ClosedAnswer s.cfg t0 t a ∧
      exec (.seqGetearbit t) s = .next { s with m := .load a.seq a.eng, result := some (.level a.level) } := by
  obtain ⟨a, ha, hclosed⟩ := seqQuery_closed hkinds h hle
  exact ⟨a, hclosed, by rw [exec_seqGetearbit_of t hm, ha, orRefuse_ok]⟩

/-- R70: after any non-decreasing queries the last answer is the closed form's. -/
theorem execAll_seqGetearbit {s : State} {seq : SeqState} {eng : EngState} {t0 last : Nat}
    (hkinds : s.cfg.TapeKindsSpecified) (hm : s.m = .load seq eng) (h : Playing s.cfg t0 last seq eng)
    (ts : List Nat) (t : Nat) (hmono : (last :: (ts ++ [t])).Pairwise (· ≤ ·)) :
    ∃ s' a, execAll ((ts ++ [t]).map .seqGetearbit) s = .next s' ∧ s'.m = .load a.seq a.eng ∧
      s'.result = some (.level a.level) ∧ ClosedAnswer s.cfg t0 t a := by
  induction ts generalizing s seq eng last with
  | nil =>
    obtain ⟨a, hclosed, hexec⟩ := exec_seqGetearbit_closed (t := t) hkinds hm h (List.rel_of_pairwise_cons hmono (by simp))
    exact ⟨_, a, execAll_cons_next hexec, rfl, rfl, hclosed⟩
  | cons u ts ih =>
    obtain ⟨hle, hmono'⟩ := List.pairwise_cons.mp hmono
    obtain ⟨a, hclosed, hexec⟩ := exec_seqGetearbit_closed hkinds hm h (hle u (by simp))
    obtain ⟨s', a', hs', hrest⟩ := ih (s := { s with m := .load a.seq a.eng, result := some (.level a.level) })
      hkinds rfl hclosed.playing hmono'
    exact ⟨s', a', (execAll_cons_next hexec).trans hs', hrest⟩

/-- Settles O21: the query answers, and only the two components' registers change. -/
theorem getearbitCompletes : Obligations.GetearbitCompletes := by
  intro s seq eng tact hm hkinds hinv hbound ht
  obtain ⟨a, ha, hblock, hstart⟩ := seqQuery_answers hkinds hinv hbound ht
  obtain ⟨hsame, hhigh⟩ := seqQuery_eof ha
  exact ⟨a.seq, a.eng, a.level, by rw [exec_seqGetearbit_of tact hm, ha, orRefuse_ok], hblock, hstart, hsame, hhigh⟩

/-- Settles O22: the loop's refusal. -/
theorem unspecifiedKindRefused : Obligations.UnspecifiedKindRefused := by
  intro s seq eng j b tact hm heof hle hb h1 h2 hbound hpass
  refine exec_seqGetearbit_refused hm ?_
  rw [seqQuery, if_neg (by simp [heof])]
  exact seqLoop_refuses rfl hle hb h1 h2 hbound hpass

/-- Settles O23: the closed form of the last answer; a slot that holds the tact is the one the registers stand at. -/
theorem tapeSignalIsAFunctionOfTime : Obligations.TapeSignalIsAFunctionOfTime := by
  intro s t0 ts t hwf hmode hmono
  obtain ⟨seq, eng, hm⟩ := exists_load_of_mode hmode
  obtain ⟨s', a, hs', hm', hresult, hclosed⟩ := execAll_seqGetearbit
    (s := { s with m := .load (seqStart s.cfg t0).1 (seqStart s.cfg t0).2, result := none }) hwf.2 rfl
    (playing_start s.cfg t0) ts t hmono
  refine ⟨s', a.seq, a.eng, (execAll_cons_next (exec_seqInitplay_of t0 hm)).trans hs', hm', ?_⟩
  rw [hresult]
  rcases hclosed.answer with ⟨heof, hhigh, hend⟩ | ⟨heof, b, hholds, hlevel⟩
  · refine ⟨iff_of_true heof hend, fun _ => by rw [hhigh], fun h => by simp [heof] at h, fun j b hj => ?_⟩
    exact absurd (slotHolds_before_end hj) (Nat.not_lt.mpr hend)
  · refine ⟨iff_of_false (by simp [heof]) (Nat.not_le.mpr (slotHolds_before_end hholds)), fun h => by simp [heof] at h,
      fun _ => ⟨hclosed.atSlot, b, hholds, by rw [hlevel]⟩, fun j b' hj => ⟨heof, slotHolds_unique hj hholds⟩⟩

end Sys2Proof.Machine
end

section
/-! SUPPORT. O37 to O39: data pulses and whole signals fed to the capture decoder (R35, R79, R95). Edges enter through the
classes of the durations between them (`execAll_edges`), and the classes of a frame's pulses through `pulseRun`. -/

namespace Sys2Proof.Machine

variable {c : Config}

/-! ## Data pulses (R35, R79) -/

/-- The edges of `onEdges`, as tacts and levels. -/
def edgesFrom (tact : Nat) : List Nat → List (Nat × Level)
  | [] => []
  | d :: ds => (tact + d, high) :: edgesFrom (tact + d) ds

theorem onEdges_eq (tact : Nat) (ds : List Nat) :
    onEdges tact ds = (edgesFrom tact ds).map fun e => .capOnedge e.1 e.2 := by
  induction ds generalizing tact with
  | nil => rfl
  | cons d ds ih => rw [onEdges, ih, edgesFrom, List.map_cons]

theorem edgesFrom_mono (tact : Nat) (ds : List Nat) :
    (tact :: (edgesFrom tact ds).map Prod.fst).Pairwise (· ≤ ·) := by
  rw [← List.isChain_iff_pairwise]
  induction ds generalizing tact with
  | nil => exact List.isChain_singleton _
  | cons d ds ih => exact List.isChain_cons_cons.mpr ⟨Nat.le_add_right .., ih (tact + d)⟩

/-- The measured durations are the ones fed. -/
theorem classesFrom_edgesFrom (tact : Nat) (ds : List Nat) :
    classesFrom c tact ((edgesFrom tact ds).map Prod.fst) = ds.map (classify c) := by
  induction ds generalizing tact with
  | nil => rfl
  | cons d ds ih => rw [edgesFrom, List.map_cons, classesFrom, ih, Nat.add_sub_cancel_left, List.map_cons]

theorem map_some_injective {α : Type} {l l' : List α} (h : l.map some = l'.map some) : l = l' :=
  List.map_injective_iff.mpr (Option.some_injective α) h

/-- R53: under WF(cfg) the nominal lengths of a payload's data pulses are classified as its bits. -/
theorem classify_dataPulses (h : c.ParametersWF) (payload : List Byte) :
    ((dataPulses payload).map (pulseLength c)).map (classify c) = dataClasses payload := by
  apply map_some_injective
  rw [← dataPulses_classes, List.map_map, List.map_map]
  refine List.map_congr_left fun p hp => classify_symbol h ?_ ⟨Nat.le_add_right .., Nat.le_add_right ..⟩
  rintro rfl
  exact pause_not_mem_dataPulses payload hp

/-- Settles O37: the edges are the run of their classes, which are the payload's. -/
theorem dataPulsesAreReassembled : Obligations.DataPulsesAreReassembled := by
  intro s cap sink payload hwf hm hready
  obtain ⟨t, last, ht, -, htm, hevents⟩ := execAll_edges hm (.inr rfl)
    (edgesFrom_mono cap.lastEdgeTact ((dataPulses payload).map (pulseLength s.cfg)))
  obtain ⟨phase, hphase, hrun⟩ := pulseRun_data s.cfg payload sink [] hready
  rw [classesFrom_edgesFrom, classify_dataPulses hwf.1, quiet, hrun] at htm hevents
  refine ⟨t, _, by rw [onEdges_eq, ht], htm,
    ⟨hphase, hready.offsetZero, hready.accZero, hready.noHalf⟩, rfl, rfl, rfl, ?_⟩
  rw [hevents, List.append_nil]

/-! ## A whole signal (R95) -/

/-- R45: the frame from the first edge on. -/
theorem frame_drop_firstEdge (b : DataBlock) : (frame b).drop (firstEdge b) =
    List.replicate (b.pilotPulseCount - firstEdge b) .pilot ++ ([.sync1, .sync2] ++ (dataPulses b.payload ++ [.term])) := by
  rw [frame, List.drop_append_of_le_length (by rw [List.length_replicate]; exact Nat.mod_le ..), List.drop_replicate]

theorem pause_not_mem_frame (b : DataBlock) : .pause ∉ frame b := by
  simp [frame, pause_not_mem_dataPulses]

/-- The classes of a frame's pulses from the first edge on. -/
def signalClasses (b : DataBlock) : List PulseClass :=
  List.replicate (b.pilotPulseCount - firstEdge b) .pilot ++ (.sync1 :: .sync2 :: (dataClasses b.payload ++ [.term]))

theorem frame_drop_classes (b : DataBlock) :
    ((frame b).drop (firstEdge b)).map symbolClass = (signalClasses b).map some := by
  simp [frame_drop_firstEdge, signalClasses, dataPulses_classes, symbolClass]

/-- R75, R76: from phase `None` a first pulse of any class, and pilot pulses after it, count the pilots; the first one counts
too when it is a pilot. -/
theorem pulseRun_leadIn (k : PulseClass) (n : Nat) {cap : CapState} (sink : SinkState) (h : cap.phase = .none) :
    ∃ count, n + 1 ≤ count ∧ count ≤ n + 2 ∧
      pulseRun c (k :: List.replicate (n + 1) .pilot) (quiet cap sink) =
        quiet { cap with phase := .pilot, pilotCount := count } sink := by
  have hfirst : pulseRun c (k :: List.replicate (n + 1) .pilot) (quiet cap sink) =
      pulseRun c (List.replicate (n + 1) .pilot) (quiet (edgeInNone k cap) sink) := by
    rw [pulseRun, quiet, capPulse_inNone h]
    rfl
  rw [hfirst]
  by_cases hk : k = .pilot
  · refine ⟨1 + (n + 1), by omega, by omega, ?_⟩
    rw [edgeInNone, if_pos hk]
    exact pulseRun_pilots c (n + 1) sink [] rfl
  · refine ⟨1 + n, by omega, by omega, ?_⟩
    rw [edgeInNone_of_ne hk, List.replicate_succ, pulseRun, quiet, capPulse_inNone h]
    exact pulseRun_pilots c n sink [] rfl

/-- R95: the run of a signal's classes delivers its payload, with a pilot count at most one off. -/
theorem pulseRun_signal {b : DataBlock} (k : PulseClass) {cap : CapState} (sink : SinkState) (h : cap.phase = .none)
    (hmin : c.minPilotCount + 1 ≤ b.pilotPulseCount) (hcorner : 1 ≤ c.minPilotCount ∨ 2 ≤ b.pilotPulseCount) :
    ∃ count, b.pilotPulseCount ≤ count + 1 ∧ count ≤ b.pilotPulseCount + 1 ∧
      pulseRun c (k :: signalClasses b) (quiet cap sink) =
        capDeliver c { cap with
          phase := .pilot, pilotCount := count, bitOffset := 0, byteAcc := 0x00, prevPulse := .noPulse
          buffer := b.payload } sink := by
  have hfirst : firstEdge b ≤ 1 := Nat.lt_succ_iff.mp (Nat.mod_lt _ (by omega))
  obtain ⟨n, hn⟩ : ∃ n, b.pilotPulseCount - firstEdge b = n + 1 := ⟨b.pilotPulseCount - firstEdge b - 1, by omega⟩
  obtain ⟨count, hlo, hhi, hrun⟩ := pulseRun_leadIn (c := c) k n sink h
  refine ⟨count, by omega, by omega, ?_⟩
  rw [signalClasses, hn, ← List.cons_append, pulseRun_append, hrun]
  exact pulseRun_tail c b.payload sink rfl (by simp only; omega)

/-- The edges of `signalEdges`, as tacts and levels. -/
def signalEdgeList (b : DataBlock) (edge : Nat → Nat) : List (Nat × Level) :=
  (List.range (nPulses b + 1 - firstEdge b)).map fun j =>
    (edge (firstEdge b + j), if firstEdge b + j < nPulses b then pulseLevel b (firstEdge b + j) else high)

theorem signalEdges_eq (b : DataBlock) (edge : Nat → Nat) :
    signalEdges b edge = (signalEdgeList b edge).map fun e => .capOnedge e.1 e.2 := by
  rw [signalEdgeList, List.map_map]
  rfl

theorem signalEdgeList_tacts (b : DataBlock) (edge : Nat → Nat) : (signalEdgeList b edge).map Prod.fst =
    (List.range (nPulses b + 1 - firstEdge b)).map fun j => edge (firstEdge b + j) := by
  rw [signalEdgeList, List.map_map]
  rfl

theorem firstEdge_le (b : DataBlock) : firstEdge b ≤ nPulses b :=
  (Nat.mod_le ..).trans (by unfold nPulses; omega)

/-- R95: the premise on the edges of a signal, each pulse's measured duration within its window. -/
def EdgesMatch (c : Config) (b : DataBlock) (edge : Nat → Nat) : Prop :=
  ∀ k d, firstEdge b ≤ k → (frameDurations c b)[k]? = some d →
    edge k ≤ edge (k + 1) ∧ Matches c (edge (k + 1) - edge k) d

section SignalEdges
variable {b : DataBlock} {edge : Nat → Nat}

theorem EdgesMatch.of_pulse (h : EdgesMatch c b edge) {k : Nat} {p : PulseSymbol} (hk : firstEdge b ≤ k)
    (hp : (frame b)[k]? = some p) : edge k ≤ edge (k + 1) ∧ Matches c (edge (k + 1) - edge k) (pulseLength c p) :=
  h k _ hk (by rw [frameDurations_getElem?, hp]; rfl)

theorem EdgesMatch.mono (h : EdgesMatch c b edge) {i j : Nat} (hi : firstEdge b ≤ i) (hij : i ≤ j)
    (hj : j ≤ nPulses b) : edge i ≤ edge j := by
  induction j, hij using Nat.le_induction with
  | base => exact le_rfl
  | succ j hij ih =>
    have hlt : j < (frame b).length := by rw [frame_length]; exact hj
    exact (ih (by omega)).trans (h.of_pulse (hi.trans hij) (List.getElem?_eq_getElem hlt)).1

/-- The edges come in order, from the session's start on. -/
theorem EdgesMatch.pairwise (h : EdgesMatch c b edge) {saveTact : Nat} (hsave : saveTact ≤ edge (firstEdge b)) :
    (saveTact :: (signalEdgeList b edge).map Prod.fst).Pairwise (· ≤ ·) := by
  rw [signalEdgeList_tacts, List.pairwise_cons, List.pairwise_map]
  constructor
  · intro t ht
    obtain ⟨j, hj, rfl⟩ := List.mem_map.mp ht
    rw [List.mem_range] at hj
    exact hsave.trans (h.mono le_rfl (Nat.le_add_right ..) (by omega))
  · refine List.pairwise_lt_range.imp_of_mem fun {i j} _ hj hij => ?_
    rw [List.mem_range] at hj
    exact h.mono (Nat.le_add_right ..) (by omega) (by omega)

/-- R53, R95: every edge after the first is classified as its pulse. -/
theorem EdgesMatch.classes (h : EdgesMatch c b edge) (hwf : c.ParametersWF) (saveTact : Nat) :
    classesFrom c saveTact ((signalEdgeList b edge).map Prod.fst) =
      classify c (edge (firstEdge b) - saveTact) :: signalClasses b := by
  have hrest := classesFrom_of_matches hwf (edge := edge) ((frame b).drop (firstEdge b)) (firstEdge b)
    (fun hp => pause_not_mem_frame b (List.mem_of_mem_drop hp)) fun j p hp =>
      (h.of_pulse (Nat.le_add_right ..) (by rwa [List.getElem?_drop] at hp)).2
  rw [frame_drop_classes, List.length_drop, frame_length] at hrest
  rw [signalEdgeList_tacts, Nat.sub_add_comm (firstEdge_le b), List.range_succ_eq_map, List.map_cons, List.map_map,
    classesFrom, ← map_some_injective hrest]
  simp only [Function.comp_def, Nat.succ_eq_add_one, Nat.add_zero, Nat.add_assoc, Nat.add_comm 1]

end SignalEdges

/-- Settles O38: the signal's edges are the run of their classes, whose delivery is the session's first. -/
theorem roundTripLaw : Obligations.RoundTripLaw := by
  intro s b saveTact edge hwf hmode hvalid hcorner hsave hedges
  obtain ⟨cap, sink, hm⟩ := exists_save_of_mode hmode
  have hmatch : EdgesMatch s.cfg b edge := hedges
  obtain ⟨t, last, ht, -, htm, hevents⟩ := execAll_edges
    (s := { s with m := .save (capFresh saveTact) sinkFresh, result := none }) rfl (.inr rfl) (hmatch.pairwise hsave)
  obtain ⟨count, hlo, hhi, hrun⟩ := pulseRun_signal (cap := capFresh saveTact)
    (classify s.cfg (edge (firstEdge b) - saveTact)) sinkFresh rfl hvalid.2 hcorner
  rw [show (capFresh saveTact).lastEdgeTact = saveTact from rfl, hmatch.classes hwf.1, hrun,
    capDeliver_first rfl] at htm hevents
  simp only [← List.append_assoc] at hevents
  refine ⟨t, _, _, _, ?_, htm, rfl, rfl, rfl, hevents, rfl, hlo, hhi⟩
  rw [execAll_cons_next (exec_capInit_of saveTact hm), signalEdges_eq, ht]

/-! ## The corner of R95 (log entry 20) -/

/-- A well-formed configuration whose `MIN_PILOT_COUNT` is 0. -/
def cornerConfig : Config where
  pilotPL := 1
  sync1PL := 2
  sync2PL := 3
  bit0PL := 4
  bit1PL := 5
  termSyncPL := 6
  headerPilotCount := 1
  dataPilotCount := 0
  pauseMs := 0
  tolerance := 0
  minPilotCount := 0
  silenceThreshold := 0
  loadEntryAddr := 0
  saveEntryAddr := 1
  errorHandlerAddr := 2
  addrBits := 2
  clockHz := 1
  tactBits := 8
  headerLen := 1
  nameOffset := 0
  nameLen := 0
  captureBufferBytes := 0
  tape := []

/-- A standard block with one pilot pulse and no payload. -/
def cornerBlock : DataBlock := ⟨.standardData, [], 1, false, 0⟩

/-- A Save session under that configuration. -/
def cornerState : State where
  cfg := cornerConfig
  clk := { last := 0 }
  m := .save (capFresh 0) sinkFresh
  result := none
  events := []
  input := []
  freeCount := 0

/-- The decoder ignores the whole signal in phase `None`: its first edge, 8 tacts after the session's start, ends no pilot. -/
theorem execAll_corner :
    execAll (.capInit 0 :: signalEdges cornerBlock fun k => 7 + pulseStart cornerConfig cornerBlock k) cornerState =
      .next { cornerState with m := .save { capFresh 0 with lastEdgeTact := 19 } sinkFresh } := by
  rfl

/-- Refutes O39: `MIN_PILOT_COUNT` is 0 and the block has one pilot pulse, whose beginning is no edge, so that no block is
delivered. -/
theorem not_roundTripLawAsWritten : ¬ Obligations.RoundTripLawAsWritten := by
  intro h
  obtain ⟨t, cap, sink, blk, hexec, hm, -, hcount, -⟩ :=
    h cornerState cornerBlock 0 7 (by decide) rfl (by decide) (by decide)
  cases execAll_corner.symm.trans hexec
  cases hm
  cases hcount

end Sys2Proof.Machine
end
